-- ==== Sys2Proof/Word.lean ====
section
/-! DEFINITION. The block's words: bytes, 16-bit values, the command word, bank indices and offsets. -/

namespace Sys2Proof

/-- An 8-bit byte (10_state.md R23). -/
abbrev Byte := BitVec 8

/-- A 16-bit value: a logical address, an ADDR or DATA field, a response's data (30_encoding.md R81, R86). -/
abbrev Word := BitVec 16

/-- The 48-bit command word (30_encoding.md R81). -/
abbrev CommandWord := BitVec 48

/-- A page-table slot's value, a bank index of 3 bits (10_state.md R28). -/
abbrev BankIndex := BitVec 3

/-- An in-bank offset of 14 bits (30_encoding.md R87, R89). -/
abbrev Offset := BitVec 14

end Sys2Proof
end

