-- ==== Sys2Proof/Config.lean ====
section
/-! DEFINITION. The fixed parameters of the block (00_scope.md R7). The spec leaves no parameter open
(92_eei_decisions.md, "Parameters left open"), so there is no free value here. -/

namespace Sys2Proof

/-- BANK_SIZE, 16 KiB (00_scope.md R7). -/
abbrev Config.bankSize : Nat := 16384

/-- N_SMALL (00_scope.md R7). -/
abbrev Config.banksSmaller : Nat := 3

/-- N_LARGE (00_scope.md R7). -/
abbrev Config.banksLarger : Nat := 8

/-- RAM_BASE: logical addresses below it are unmapped (00_scope.md R7). -/
abbrev Config.ramBase : Word := 0x4000

/-- UNMAPPED_READ_VALUE (00_scope.md R7). -/
abbrev Config.unmappedRead : Byte := 0xFF

/-- HEADER_SIZE, 27 bytes (00_scope.md R7). -/
abbrev Config.headerSize : Nat := 27

/-- RAM_IMAGE_SIZE, 48 KiB (00_scope.md R7). -/
abbrev Config.ramImageSize : Nat := 49152

/-- EXT_SIZE, 4 bytes (00_scope.md R7). -/
abbrev Config.extSize : Nat := 4

/-- HEADER_SIZE + RAM_IMAGE_SIZE = 49179, the length that separates the two formats (40_load.md R111). -/
abbrev Config.smallerLength : Nat := Config.headerSize + Config.ramImageSize

/-- Where the trailing banks of a Larger image begin, 49183 (30_encoding.md R94). -/
abbrev Config.trailingStart : Nat := Config.smallerLength + Config.extSize

end Sys2Proof
end

