-- ==== Sys2Proof/Syntax.lean ====
section
/-! DEFINITION. The commands of the block (30_encoding.md R82), one constructor per row of spec/opcode_table.json,
and LOAD's operand, the IMAGE of the side channel (R100). -/

namespace Sys2Proof

/-- The ten commands (30_encoding.md R82), each with the operands the table lists as used.
An ignored field (R85) is no operand. -/
inductive Instr where
  /-- LPEEK8 addr (41_logical_access.md R142). -/
  | lpeek8 (addr : Word)
  /-- LPOKE8 addr, value8 (41_logical_access.md R143). -/
  | lpoke8 (addr : Word) (value : Byte)
  /-- LPEEK16 addr (41_logical_access.md R144). -/
  | lpeek16 (addr : Word)
  /-- LPOKE16 addr, value16 (41_logical_access.md R145). -/
  | lpoke16 (addr : Word) (value : Word)
  /-- BPEEK8 bank, addr (42_bank_access.md R161). -/
  | bpeek8 (bank : Byte) (addr : Word)
  /-- BPOKE8 bank, addr, value8 (42_bank_access.md R162). -/
  | bpoke8 (bank : Byte) (addr : Word) (value : Byte)
  /-- BPEEK16 bank, addr, wrap (42_bank_access.md R164). -/
  | bpeek16 (bank : Byte) (addr : Word) (wrap : Bool)
  /-- BPOKE16 bank, addr, value16, wrap (42_bank_access.md R165). -/
  | bpoke16 (bank : Byte) (addr : Word) (value : Word) (wrap : Bool)
  /-- SETPAGE value8 (43_paging_control.md R180). -/
  | setpage (value : Byte)
  /-- LOAD; its IMAGE comes on the side channel (40_load.md R110, 30_encoding.md R100). -/
  | load
deriving DecidableEq, Repr

/-- A byte sequence for LOAD (30_encoding.md R100): its length, and its bytes as (offset, byte) pairs.
An offset that no pair names holds 0 (DESIGN CHOICE, safe, log 1: a form of writing a byte sequence). -/
structure Image where
  /-- L, the number of bytes of the sequence. -/
  length : Nat
  /-- The bytes by offset; an unlisted offset holds 0. -/
  cells  : List Host.Cell
deriving DecidableEq, Repr

/-- What makes a command word reserved (30_encoding.md R84): its OP and RSV fields. -/
structure ReservedEncoding where
  /-- Bits 47:44. -/
  op  : BitVec 4
  /-- Bits 42:40. -/
  rsv : BitVec 3
deriving DecidableEq, Repr

end Sys2Proof
end

