-- ==== Sys2Proof/WellFormed.lean ====
section
/-! DEFINITION. Well-formed operands. Every operand of Instr has exactly its field's width (30_encoding.md R81), so a
term of Instr needs no check; LOAD's image has three: rising offsets, no listed zero, every offset inside the length. -/

namespace Sys2Proof

/-- The canonical form of a list of cells: strictly rising addresses, and no entry equal to 0, the value an
unlisted address reads as. -/
abbrev Canonical (cells : List Host.Cell) : Prop :=
  cells.Pairwise (fun c d => c.1 < d.1) ∧ ∀ c ∈ cells, c.2 ≠ 0

/-- An image in canonical form: one term for each byte sequence. LOAD does not need it (log 1). -/
abbrev Image.wellFormed (img : Image) : Prop :=
  Canonical img.cells ∧ ∀ c ∈ img.cells, c.1 < img.length

end Sys2Proof
end

