-- ==== Sys2Proof/Decode.lean ====
section
/-! DEFINITION. The command word (30_encoding.md R81): its fields, the decoder, the encoder. -/

namespace Sys2Proof

/-- OP, bits 47:44 (30_encoding.md R81). -/
def fieldOp (w : CommandWord) : BitVec 4 := w.extractLsb' 44 4

/-- W, bit 43 (30_encoding.md R81, R83). -/
def fieldWrap (w : CommandWord) : Bool := w.getLsbD 43

/-- RSV, bits 42:40 (30_encoding.md R81). -/
def fieldRsv (w : CommandWord) : BitVec 3 := w.extractLsb' 40 3

/-- BANK, bits 39:32 (30_encoding.md R81). -/
def fieldBank (w : CommandWord) : Byte := w.extractLsb' 32 8

/-- ADDR, bits 31:16 (30_encoding.md R81). -/
def fieldAddr (w : CommandWord) : Word := w.extractLsb' 16 16

/-- DATA, bits 15:0 (30_encoding.md R81). -/
def fieldData (w : CommandWord) : Word := w.extractLsb' 0 16

/-- DATA[7:0], the data of LPOKE8, BPOKE8 and SETPAGE (30_encoding.md R91). -/
def fieldData8 (w : CommandWord) : Byte := w.extractLsb' 0 8

/-- The decoder (30_encoding.md R82, R84, R85): total on every 48-bit word. A reserved word is rejected with its
OP and RSV fields. -/
def decode (w : CommandWord) : Except ReservedEncoding Instr :=
  if fieldRsv w ≠ 0 then .error ⟨fieldOp w, fieldRsv w⟩
  else if fieldOp w = 0x1 then .ok (.lpeek8 (fieldAddr w))
  else if fieldOp w = 0x2 then .ok (.lpoke8 (fieldAddr w) (fieldData8 w))
  else if fieldOp w = 0x3 then .ok (.lpeek16 (fieldAddr w))
  else if fieldOp w = 0x4 then .ok (.lpoke16 (fieldAddr w) (fieldData w))
  else if fieldOp w = 0x5 then .ok (.bpeek8 (fieldBank w) (fieldAddr w))
  else if fieldOp w = 0x6 then .ok (.bpoke8 (fieldBank w) (fieldAddr w) (fieldData8 w))
  else if fieldOp w = 0x7 then .ok (.bpeek16 (fieldBank w) (fieldAddr w) (fieldWrap w))
  else if fieldOp w = 0x8 then .ok (.bpoke16 (fieldBank w) (fieldAddr w) (fieldData w) (fieldWrap w))
  else if fieldOp w = 0x9 then .ok (.setpage (fieldData8 w))
  else if fieldOp w = 0xF then .ok .load
  else .error ⟨fieldOp w, fieldRsv w⟩

/-- A command word from its fields, RSV = 000 (30_encoding.md R81). -/
def commandWord (op : BitVec 4) (wrap : Bool) (bank : Byte) (addr data : Word) : CommandWord :=
  op ++ BitVec.ofBool wrap ++ 0#3 ++ bank ++ addr ++ data

/-- The encoder: the assembler's word, every ignored field 0 (30_encoding.md R82, R97). -/
def encode (i : Instr) : CommandWord :=
  match i with
  | .lpeek8 addr => commandWord 0x1 false 0 addr 0
  | .lpoke8 addr value => commandWord 0x2 false 0 addr (value.setWidth 16)
  | .lpeek16 addr => commandWord 0x3 false 0 addr 0
  | .lpoke16 addr value => commandWord 0x4 false 0 addr value
  | .bpeek8 bank addr => commandWord 0x5 false bank addr 0
  | .bpoke8 bank addr value => commandWord 0x6 false bank addr (value.setWidth 16)
  | .bpeek16 bank addr wrap => commandWord 0x7 wrap bank addr 0
  | .bpoke16 bank addr value wrap => commandWord 0x8 wrap bank addr value
  | .setpage value => commandWord 0x9 false 0 0 (value.setWidth 16)
  | .load => commandWord 0xF false 0 0 0

/-- The 48-bit command word whose bits, numbered as spec/opcode_table.json numbers them, are those of w; none where
w has a bit that no command word has (30_encoding.md R99: the length is always 48 bits). -/
def tableWord (nbits w : Nat) : Option CommandWord :=
  if nbits ≤ 48 ∧ w < 2 ^ nbits then some (BitVec.ofNat 48 w) else none

/-- The instruction the decoder reads from a table word; none where it refuses. -/
def decodeTableWord (nbits w : Nat) : Option Instr :=
  match tableWord nbits w with
  | none => none
  | some word =>
    match decode word with
    | .ok i => some i
    | .error _ => none

end Sys2Proof
end

