-- ==== Sys2Proof/Machine/State.lean ====
section
/-! DEFINITION. The state of the block as plain data (10_state.md R20, R21), the reasons a step can stop, and the
state of a new block instance (70_reset_and_hazards.md R230). -/

namespace Sys2Proof.Machine

/-- The two memory configurations (10_state.md R22). -/
inductive Format where
  | smaller
  | larger
deriving DecidableEq, Repr

/-- The fault codes (60_exceptions.md R203). -/
inductive FaultCode where
  | addressOutOfRange
  | bankOutOfRange
  | pagingUnsupported
deriving DecidableEq, Repr

/-- The decode errors of LOAD (60_exceptions.md R202). -/
inductive DecodeError where
  | truncatedInput
deriving DecidableEq, Repr

/-- `regs`: the CPU register record of the image header, data the block only stores (10_state.md R32). -/
structure Regs where
  i      : Byte
  hl'    : Word
  de'    : Word
  bc'    : Word
  af'    : Word
  hl     : Word
  de     : Word
  bc     : Word
  iy     : Word
  ix     : Word
  iff    : Byte
  r      : Byte
  af     : Word
  sp     : Word
  im     : Byte
  border : Byte
deriving DecidableEq, Repr

/-- The extension of the Larger configuration: the paging-control register and the two passthrough fields
(10_state.md R29, R31). -/
structure Extension where
  /-- pcr, the paging-control register (R29). -/
  pcr : Byte
  /-- ext_pc (R31). -/
  pc  : Word
  /-- ext_aux (R31). -/
  aux : Byte
deriving DecidableEq, Repr

/-- The page table: three slots, each a bank index (10_state.md R25, R28). -/
structure PageTable where
  slot0 : BankIndex
  slot1 : BankIndex
  slot2 : BankIndex
deriving DecidableEq, Repr

/-- Bank storage: byte o of bank b under the key b × 0x4000 + o (20_memory.md R53). An unlisted key holds 0, which is
a byte like any other: LOAD gives every byte a value (40_load.md R124; log 2). -/
abbrev Memory := List Host.Cell

/-- The canonical form of bank storage: keys strictly rising, no listed zero. -/
abbrev Memory.wf (m : Memory) : Prop := Canonical m

/-- S, the record of a loaded block (10_state.md R21). -/
structure Record where
  /-- The configuration (R22). -/
  fmt  : Format
  /-- The passthrough CPU registers (R32). -/
  regs : Regs
  /-- pcr, ext_pc and ext_aux, present in the Larger configuration only (R29, R31). -/
  ext  : Option Extension
  /-- The N banks (R23). -/
  bank : Memory
  /-- The page table (R25). -/
  pt   : PageTable
deriving DecidableEq, Repr

/-- The top-level state (10_state.md R20). In Unloaded no field of the record has a value (R37). -/
inductive Block where
  | unloaded
  | loaded (S : Record)
  | faulted (S : Record) (cause : FaultCode)
deriving DecidableEq, Repr

/-- The status of a response (30_encoding.md R86). -/
inductive Status where
  | ok
  | fault
  | decodeError
deriving DecidableEq, Repr

/-- The response record of a command (30_encoding.md R86). -/
structure Response where
  status : Status
  /-- The fault or decode-error number, else 0. -/
  code   : Nat
  /-- A read's result, else 0. -/
  data   : Word
deriving DecidableEq, Repr

/-- A new value for one field of regs: the host's "explicit field mutation" (60_exceptions.md R218). -/
inductive RegEdit where
  | i (v : Byte)
  | hl' (v : Word)
  | de' (v : Word)
  | bc' (v : Word)
  | af' (v : Word)
  | hl (v : Word)
  | de (v : Word)
  | bc (v : Word)
  | iy (v : Word)
  | ix (v : Word)
  | iff (v : Byte)
  | r (v : Byte)
  | af (v : Word)
  | sp (v : Word)
  | im (v : Byte)
  | border (v : Byte)
deriving DecidableEq, Repr

/-- What the host can do to the block (60_exceptions.md R218). Observing needs no move: it is reading the state. -/
inductive HostMove where
  /-- Issue a command word, with what the side channel carries; only LOAD reads the image. -/
  | command (word : CommandWord) (image : Image)
  /-- Edit fields of regs (log 8). -/
  | editRegs (edits : List RegEdit)
deriving DecidableEq, Repr

/-- Why a command was refused (60_exceptions.md R207). -/
inductive RefusalReason where
  /-- A reserved OP or RSV ≠ 000 (30_encoding.md R84). -/
  | reservedEncoding (e : ReservedEncoding)
  /-- A command other than LOAD in Unloaded (10_state.md R37). -/
  | notLoaded
  /-- LOAD in Loaded (40_load.md R123). -/
  | loadWhenLoaded
deriving DecidableEq, Repr

/-- The reasons the machine stops. -/
inductive Fault where
  /-- Raised by every command and by every step in Faulted(S, cause): the block executes nothing more
  (60_exceptions.md R206 for commands; logs 4 and 8 for the other steps). Safe: nothing follows. -/
  | stuck (cause : FaultCode)
deriving DecidableEq, Repr

/-- The moves the model gives no meaning. A command the block refuses (60_exceptions.md R207) is not one of them: it
takes a next state with the refusal mark. -/
inductive Refusal where
  /-- For an arm of exec without a meaning; no arm raises it. Safe. -/
  | notModelled (mnemonic : String)
  /-- Raised by a step whose host move edits regs in Unloaded, where there is no regs record to edit
  (10_state.md R37; log 8). Safe. -/
  | noRegsToEdit
deriving DecidableEq, Repr

/-- The whole state. -/
structure State where
  /-- The top-level state with its record (10_state.md R20). -/
  block    : Block
  /-- The host's moves not yet made, oldest first (60_exceptions.md R218; log 3). -/
  pending  : List HostMove
  /-- What the side channel carries with the command being executed (30_encoding.md R100; log 7). -/
  image    : Image
  /-- The response to the last command; none before any, and none when it was refused (30_encoding.md R86; log 6). -/
  response : Option Response
  /-- The refusal mark: the reason of the first refused command of the run (60_exceptions.md R207; log 5). -/
  refusal  : Option RefusalReason
deriving DecidableEq, Repr

/-- A new block instance: Unloaded, holding no values (70_reset_and_hazards.md R230, 10_state.md R37). The other fields
are the model's own (logs 3, 5, 6, 7). -/
def State.reset : State where
  block    := .unloaded
  pending  := []
  image    := ⟨0, []⟩
  response := none
  refusal  := none

end Sys2Proof.Machine
end

