-- ==== Sys2Proof/Machine/Operands.lean ====
section
/-! DEFINITION. The operand forms: logical addresses and the translator, bank-relative offsets and the place of the
second byte, the bytes of a 16-bit value, the paging-control byte. -/

namespace Sys2Proof.Machine

/-- A bank byte's position. The bank is an unbounded natural number until it is checked (00_scope.md R11). -/
structure Place where
  bank : Nat
  off  : Offset
deriving DecidableEq, Repr

/-- WIN = addr[15:14] (30_encoding.md R87). -/
def windowOf (addr : Word) : BitVec 2 := addr.extractLsb' 14 2

/-- addr[13:0] = addr & 0x3FFF (30_encoding.md R87, R89). -/
def offsetOf (addr : Word) : Offset := addr.extractLsb' 0 14

/-- pt[s] (00_scope.md R12); s is 0, 1 or 2. -/
def pageSlot (pt : PageTable) (s : BitVec 2) : BankIndex :=
  if s = 0 then pt.slot0 else if s = 1 then pt.slot1 else pt.slot2

/-- Translate (20_memory.md R52): none is Unmapped. -/
def translate (pt : PageTable) (addr : Word) : Option Place :=
  if addr < Config.ramBase then none
  else some ⟨(pageSlot pt (windowOf addr - 1)).toNat, offsetOf addr⟩

/-- Second (42_bank_access.md R163): where the second byte of a bank-relative 16-bit access goes. -/
def secondPlace (p : Place) (wrap : Bool) : Place :=
  if p.off = 0x3FFF then
    if wrap then ⟨p.bank, 0⟩ else ⟨p.bank + 1, 0⟩
  else ⟨p.bank, p.off + 1⟩

/-- The operands BANK and ADDR of a bank-relative command as a place (30_encoding.md R89). -/
def bankOperand (bank : Byte) (addr : Word) : Place := ⟨bank.toNat, offsetOf addr⟩

/-- lo = v[7:0] (00_scope.md R13). -/
def loByte (v : Word) : Byte := v.extractLsb' 0 8

/-- hi = v[15:8] (00_scope.md R13). -/
def hiByte (v : Word) : Byte := v.extractLsb' 8 8

/-- zext_16 of a byte (00_scope.md R10). -/
def zext16 (v : Byte) : Word := v.setWidth 16

/-- The 16-bit value of two bytes (00_scope.md R13). -/
def joinBytes (lo hi : Byte) : Word := zext16 lo ||| (zext16 hi <<< 8)

/-- The BANK field of the paging-control byte, bits 2:0 (30_encoding.md R90). -/
def pagingBank (ctl : Byte) : BankIndex := ctl.extractLsb' 0 3

end Sys2Proof.Machine
end

