-- ==== Sys2Proof/Machine/Flags.lean ====
section
/-! DEFINITION. The block has no flags or condition codes (10_state.md R35). What it reports is the response record:
the numbers of the codes and the three kinds of response (30_encoding.md R86; 60_exceptions.md R202, R203). -/

namespace Sys2Proof.Machine

/-- The number of a fault code (60_exceptions.md R203). -/
def faultNumber (c : FaultCode) : Nat :=
  match c with
  | .addressOutOfRange => 1
  | .bankOutOfRange => 2
  | .pagingUnsupported => 3

/-- The number of a decode error (60_exceptions.md R202). -/
def decodeErrorNumber (e : DecodeError) : Nat :=
  match e with
  | .truncatedInput => 1

/-- The response of a command that completes with data (30_encoding.md R86). -/
def okResponse (data : Word) : Response := ⟨.ok, 0, data⟩

/-- The response of a command that faults (30_encoding.md R86). -/
def faultResponse (c : FaultCode) : Response := ⟨.fault, faultNumber c, 0⟩

/-- The response of a LOAD that ends in a decode error (30_encoding.md R86). -/
def decodeErrorResponse (e : DecodeError) : Response := ⟨.decodeError, decodeErrorNumber e, 0⟩

end Sys2Proof.Machine
end

