-- ==== Sys2Proof/Machine/Ops.lean ====
section
/-! DEFINITION. The shared operations: reading and writing bank bytes and image bytes, the logical and bank-relative
primitives, the frame every command runs in, taking a fault, refusing, and the host's edit of regs. -/

namespace Sys2Proof.Machine

/-- The byte stored under a key; 0 where no cell has the key. -/
def Memory.read : Memory → Nat → Byte
  | [], _ => 0
  | c :: m, a => if c.1 = a then c.2 else Memory.read m a

/-- Store a byte under a key, keeping the canonical form: a stored 0 leaves no cell. -/
def Memory.write : Memory → Nat → Byte → Memory
  | [], a, v => if v = 0 then [] else [(a, v)]
  | c :: m, a, v =>
    if a < c.1 then (if v = 0 then c :: m else (a, v) :: c :: m)
    else if a = c.1 then (if v = 0 then m else (a, v) :: m)
    else c :: Memory.write m a v

/-- IMAGE[o] (30_encoding.md R100). -/
def Image.byteAt (img : Image) (o : Nat) : Byte := Memory.read img.cells o

/-- The little-endian 16-bit field at offset o of the image (30_encoding.md R93). -/
def Image.wordAt (img : Image) (o : Nat) : Word := joinBytes (Image.byteAt img o) (Image.byteAt img (o + 1))

/-- The byte sequence bs as an image. -/
def Image.ofBytesFrom (o : Nat) : List Byte → List Host.Cell
  | [] => []
  | b :: bs => if b = 0 then Image.ofBytesFrom (o + 1) bs else (o, b) :: Image.ofBytesFrom (o + 1) bs

/-- The image of a byte sequence (30_encoding.md R100; log 1). -/
def Image.ofBytes (bs : List Byte) : Image := ⟨bs.length, Image.ofBytesFrom 0 bs⟩

/-- The 16384 image bytes from offset start on, under the keys from base on: the cells one bank gets from a chunk
(40_load.md R114, R116, R118). -/
def chunkCells (start base : Nat) : List Host.Cell → Memory
  | [] => []
  | c :: cells =>
    if start ≤ c.1 ∧ c.1 < start + Config.bankSize then
      Memory.write (chunkCells start base cells) (base + (c.1 - start)) c.2
    else chunkCells start base cells

/-- bank[b] <- IMAGE[start .. start + 16383] (40_load.md R110). -/
def Memory.fillBank (m : Memory) (b : Nat) (img : Image) (start : Nat) : Memory :=
  m.filter (fun c => c.1 < b * Config.bankSize)
    ++ chunkCells start (b * Config.bankSize) img.cells
    ++ m.filter (fun c => (b + 1) * Config.bankSize ≤ c.1)

/-- N, the number of banks (10_state.md R22). -/
def bankCount (fmt : Format) : Nat :=
  match fmt with
  | .smaller => Config.banksSmaller
  | .larger => Config.banksLarger

/-- The physical address b × 0x4000 + off of a place (20_memory.md R53). -/
def physical (p : Place) : Nat := p.bank * Config.bankSize + p.off.toNat

/-- bank[b][o] (00_scope.md R12). -/
def readPlace (S : Record) (p : Place) : Byte := Memory.read S.bank (physical p)

/-- bank[b][o] <- v (00_scope.md R12). -/
def writePlace (S : Record) (p : Place) (v : Byte) : Record :=
  { S with bank := Memory.write S.bank (physical p) v }

/-- MemRead(addr, 1) (41_logical_access.md R140). -/
def memRead (S : Record) (addr : Word) : Byte :=
  match translate S.pt addr with
  | none => Config.unmappedRead
  | some p => readPlace S p

/-- MemWrite(addr, 1, v) (41_logical_access.md R141). -/
def memWrite (S : Record) (addr : Word) (v : Byte) : Except FaultCode Record :=
  match translate S.pt addr with
  | none => .error .addressOutOfRange
  | some p => .ok (writePlace S p v)

/-- BankCheck(b) (42_bank_access.md R160): the fault it raises, if any. -/
def bankCheck (S : Record) (b : Nat) : Except FaultCode Unit :=
  if bankCount S.fmt ≤ b then .error .bankOutOfRange else .ok ()

/-- BankRead (42_bank_access.md R160). -/
def bankRead (S : Record) (p : Place) : Except FaultCode Byte :=
  match bankCheck S p.bank with
  | .error c => .error c
  | .ok () => .ok (readPlace S p)

/-- BankWrite (42_bank_access.md R160). -/
def bankWrite (S : Record) (p : Place) (v : Byte) : Except FaultCode Record :=
  match bankCheck S p.bank with
  | .error c => .error c
  | .ok () => .ok (writePlace S p v)

/-- pcr <- value; pt[2] <- value[2:0] (43_paging_control.md R180). -/
def setPaging (S : Record) (value : Byte) : Record :=
  { S with ext := S.ext.map (fun e => { e with pcr := value }),
           pt  := { S.pt with slot2 := pagingBank value } }

/-- A command completes: the record it leaves, and its response (30_encoding.md R86). -/
def State.complete (s : State) (S : Record) (data : Word) : State :=
  { s with block := .loaded S, response := some (okResponse data) }

/-- Fault entry (60_exceptions.md R204): the record unchanged, the block Faulted with the code, the response FAULT.
There is no return from a fault (R206). -/
def State.takeFault (s : State) (S : Record) (c : FaultCode) : State :=
  { s with block := .faulted S c, response := some (faultResponse c) }

/-- A decode error of LOAD: the block as it was, the response DECODE_ERROR (40_load.md R122). -/
def State.decodeFailed (s : State) (e : DecodeError) : State :=
  { s with response := some (decodeErrorResponse e) }

/-- A refused command: no change of the block, no response, and a mark that stays; the first reason is kept
(60_exceptions.md R207; log 5). -/
def State.refuse (s : State) (r : RefusalReason) : State :=
  { s with response := none, refusal := some (s.refusal.getD r) }

/-- The end of a command that ran on record S: a fault leaves S, else the new record and the data. -/
def State.finish (s : State) (S : Record) (r : Except FaultCode (Record × Word)) : State :=
  match r with
  | .error c => s.takeFault S c
  | .ok (S', data) => s.complete S' data

/-- The frame of every command but LOAD (60_exceptions.md R208): stuck in Faulted, refused in Unloaded, run in Loaded. -/
def State.runLoaded (s : State) (cmd : Record → Except FaultCode (Record × Word)) :
    Host.Outcome State Fault Refusal :=
  match s.block with
  | .faulted _ c => .fault (.stuck c)
  | .unloaded => .next (s.refuse .notLoaded)
  | .loaded S => .next (s.finish S (cmd S))

/-- One field of regs gets a new value (60_exceptions.md R218). -/
def Regs.edit (g : Regs) (e : RegEdit) : Regs :=
  match e with
  | .i v => { g with i := v }
  | .hl' v => { g with hl' := v }
  | .de' v => { g with de' := v }
  | .bc' v => { g with bc' := v }
  | .af' v => { g with af' := v }
  | .hl v => { g with hl := v }
  | .de v => { g with de := v }
  | .bc v => { g with bc := v }
  | .iy v => { g with iy := v }
  | .ix v => { g with ix := v }
  | .iff v => { g with iff := v }
  | .r v => { g with r := v }
  | .af v => { g with af := v }
  | .sp v => { g with sp := v }
  | .im v => { g with im := v }
  | .border v => { g with border := v }

/-- The host edits fields of regs, in the order given (60_exceptions.md R218; log 8). -/
def State.editRegs (s : State) (edits : List RegEdit) : Host.Outcome State Fault Refusal :=
  match s.block with
  | .faulted _ c => .fault (.stuck c)
  | .unloaded => .refused .noRegsToEdit
  | .loaded S => .next { s with block := .loaded { S with regs := edits.foldl Regs.edit S.regs } }

/-- The command at the head of the host's moves is taken up: its image stands on the side channel. -/
def State.accept (s : State) (rest : List HostMove) (img : Image) : State :=
  { s with pending := rest, image := img }

end Sys2Proof.Machine
end

