-- ==== Sys2Proof/Machine/Bank.lean ====
section
/-! DEFINITION. The bank-relative commands (42_bank_access.md). -/

namespace Sys2Proof.Machine

/-- BPEEK8 (42_bank_access.md R161). -/
def execBpeek8 (bank : Byte) (addr : Word) (s : State) : Host.Outcome State Fault Refusal :=
  s.runLoaded fun S =>
    match bankRead S (bankOperand bank addr) with
    | .error c => .error c
    | .ok v => .ok (S, zext16 v)

/-- BPOKE8 (42_bank_access.md R162). -/
def execBpoke8 (bank : Byte) (addr : Word) (value : Byte) (s : State) : Host.Outcome State Fault Refusal :=
  s.runLoaded fun S =>
    match bankWrite S (bankOperand bank addr) value with
    | .error c => .error c
    | .ok S' => .ok (S', 0)

/-- BPEEK16 (42_bank_access.md R164). -/
def execBpeek16 (bank : Byte) (addr : Word) (wrap : Bool) (s : State) : Host.Outcome State Fault Refusal :=
  s.runLoaded fun S =>
    let p := bankOperand bank addr
    let q := secondPlace p wrap
    match bankCheck S p.bank with
    | .error c => .error c
    | .ok () =>
      match bankCheck S q.bank with
      | .error c => .error c
      | .ok () => .ok (S, joinBytes (readPlace S p) (readPlace S q))

/-- BPOKE16 (42_bank_access.md R165): all checks before any write (R167). -/
def execBpoke16 (bank : Byte) (addr : Word) (value : Word) (wrap : Bool) (s : State) :
    Host.Outcome State Fault Refusal :=
  s.runLoaded fun S =>
    let p := bankOperand bank addr
    let q := secondPlace p wrap
    match bankCheck S p.bank with
    | .error c => .error c
    | .ok () =>
      match bankCheck S q.bank with
      | .error c => .error c
      | .ok () => .ok (writePlace (writePlace S p (loByte value)) q (hiByte value), 0)

end Sys2Proof.Machine
end

