-- ==== Sys2Proof/Machine/Load.lean ====
section
/-! DEFINITION. LOAD (40_load.md R110): the image decoder and the command. -/

namespace Sys2Proof.Machine

/-- header(IMAGE[0..26]) (40_load.md R113; offsets of 30_encoding.md R93). -/
def headerRegs (img : Image) : Regs where
  i      := Image.byteAt img 0
  hl'    := Image.wordAt img 1
  de'    := Image.wordAt img 3
  bc'    := Image.wordAt img 5
  af'    := Image.wordAt img 7
  hl     := Image.wordAt img 9
  de     := Image.wordAt img 11
  bc     := Image.wordAt img 13
  iy     := Image.wordAt img 15
  ix     := Image.wordAt img 17
  iff    := Image.byteAt img 19
  r      := Image.byteAt img 20
  af     := Image.wordAt img 21
  sp     := Image.wordAt img 23
  im     := Image.byteAt img 25
  border := Image.byteAt img 26

/-- Where chunk n (1, 2, 3) starts in the image (30_encoding.md R92, R94). -/
def chunkStart (n : Nat) : Nat := Config.headerSize + (n - 1) * Config.bankSize

/-- The Smaller build (40_load.md R114). -/
def smallerRecord (img : Image) : Record where
  fmt  := .smaller
  regs := headerRegs img
  ext  := none
  bank :=
    (Memory.fillBank (Memory.fillBank (Memory.fillBank [] 0 img (chunkStart 1)) 1 img (chunkStart 2)) 2 img (chunkStart 3))
  pt   := ⟨0, 1, 2⟩

/-- ctl, image byte 49181 (30_encoding.md R95). -/
def imageCtl (img : Image) : Byte := Image.byteAt img (Config.smallerLength + 2)

/-- rest: the members of [0, 1, 3, 4, 6, 7] other than ctl & 7, ascending (40_load.md R117). -/
def restBanks (ctl : Byte) : List Nat := [0, 1, 3, 4, 6, 7].filter (fun b => b ≠ (pagingBank ctl).toNat)

/-- The banks of rest take the trailing bytes in order, 16 KiB each (40_load.md R118). -/
def fillRest (img : Image) : List Nat → Nat → Memory → Memory
  | [], _, m => m
  | b :: bs, start, m => fillRest img bs (start + Config.bankSize) (Memory.fillBank m b img start)

/-- The Larger banks: chunks 1, 2, 3 into banks 5, 2 and ctl & 7 in this order, then rest (40_load.md R116, R118). -/
def largerBanks (img : Image) : Memory :=
  let m5 := Memory.fillBank [] 5 img (chunkStart 1)
  let m2 := Memory.fillBank m5 2 img (chunkStart 2)
  let m3 := Memory.fillBank m2 (pagingBank (imageCtl img)).toNat img (chunkStart 3)
  fillRest img (restBanks (imageCtl img)) Config.trailingStart m3

/-- The Larger build (40_load.md R116 to R120). -/
def largerRecord (img : Image) : Record where
  fmt  := .larger
  regs := headerRegs img
  ext  := some ⟨imageCtl img, Image.wordAt img Config.smallerLength, Image.byteAt img (Config.smallerLength + 3)⟩
  bank := largerBanks img
  pt   := ⟨5, 2, pagingBank (imageCtl img)⟩

/-- The length a Larger image needs (40_load.md R118). -/
def largerLength (img : Image) : Nat := Config.trailingStart + Config.bankSize * (restBanks (imageCtl img)).length

/-- The image decoder (40_load.md R110): the record, or the decode error TruncatedInput (R112, R115, R118). -/
def loadImage (img : Image) : Except DecodeError Record :=
  if img.length < Config.smallerLength then .error .truncatedInput
  else if img.length = Config.smallerLength then .ok (smallerRecord img)
  else if img.length < Config.trailingStart then .error .truncatedInput
  else if img.length < largerLength img then .error .truncatedInput
  else .ok (largerRecord img)

/-- LOAD (40_load.md R110): the image of the side channel builds the record; refused in Loaded, stuck in Faulted
(R123). -/
def execLoad (s : State) : Host.Outcome State Fault Refusal :=
  match s.block with
  | .faulted _ c => .fault (.stuck c)
  | .loaded _ => .next (s.refuse .loadWhenLoaded)
  | .unloaded =>
    match loadImage s.image with
    | .error e => .next (s.decodeFailed e)
    | .ok S => .next (s.complete S 0)

end Sys2Proof.Machine
end

