-- ==== Sys2Proof/Machine/Logical.lean ====
section
/-! DEFINITION. The logical-address commands (41_logical_access.md). -/

namespace Sys2Proof.Machine

/-- LPEEK8 (41_logical_access.md R142). -/
def execLpeek8 (addr : Word) (s : State) : Host.Outcome State Fault Refusal :=
  s.runLoaded fun S => .ok (S, zext16 (memRead S addr))

/-- LPOKE8 (41_logical_access.md R143). -/
def execLpoke8 (addr : Word) (value : Byte) (s : State) : Host.Outcome State Fault Refusal :=
  s.runLoaded fun S =>
    match memWrite S addr value with
    | .error c => .error c
    | .ok S' => .ok (S', 0)

/-- LPEEK16 (41_logical_access.md R144). -/
def execLpeek16 (addr : Word) (s : State) : Host.Outcome State Fault Refusal :=
  s.runLoaded fun S =>
    if addr = 0xFFFF then .error .addressOutOfRange
    else .ok (S, joinBytes (memRead S addr) (memRead S (addr + 1)))

/-- LPOKE16 (41_logical_access.md R145): both bytes are checked before the first is written. -/
def execLpoke16 (addr : Word) (value : Word) (s : State) : Host.Outcome State Fault Refusal :=
  s.runLoaded fun S =>
    if addr = 0xFFFF then .error .addressOutOfRange
    else if addr < Config.ramBase ∨ addr + 1 < Config.ramBase then .error .addressOutOfRange
    else
      match memWrite S addr (loByte value) with
      | .error c => .error c
      | .ok S1 =>
        match memWrite S1 (addr + 1) (hiByte value) with
        | .error c => .error c
        | .ok S2 => .ok (S2, 0)

end Sys2Proof.Machine
end

