-- ==== Sys2Proof/Machine/Paging.lean ====
section
/-! DEFINITION. The paging-control command (43_paging_control.md). -/

namespace Sys2Proof.Machine

/-- SETPAGE (43_paging_control.md R180, R181). -/
def execSetpage (value : Byte) (s : State) : Host.Outcome State Fault Refusal :=
  s.runLoaded fun S =>
    match S.fmt with
    | .smaller => .error .pagingUnsupported
    | .larger => .ok (setPaging S value, 0)

end Sys2Proof.Machine
end

