-- ==== Sys2Proof/Machine/Dispatch.lean ====
section
/-! DEFINITION. The meaning of each command, one arm per constructor of Instr (30_encoding.md R82). -/

namespace Sys2Proof.Machine

def exec (i : Instr) (s : State) : Host.Outcome State Fault Refusal :=
  match i with
  | .lpeek8 addr => Sys2Proof.Machine.execLpeek8 addr s
  | .lpoke8 addr value => Sys2Proof.Machine.execLpoke8 addr value s
  | .lpeek16 addr => Sys2Proof.Machine.execLpeek16 addr s
  | .lpoke16 addr value => Sys2Proof.Machine.execLpoke16 addr value s
  | .bpeek8 bank addr => Sys2Proof.Machine.execBpeek8 bank addr s
  | .bpoke8 bank addr value => Sys2Proof.Machine.execBpoke8 bank addr value s
  | .bpeek16 bank addr wrap => Sys2Proof.Machine.execBpeek16 bank addr wrap s
  | .bpoke16 bank addr value wrap => Sys2Proof.Machine.execBpoke16 bank addr value wrap s
  | .setpage value => Sys2Proof.Machine.execSetpage value s
  | .load => Sys2Proof.Machine.execLoad s

end Sys2Proof.Machine
end

