-- ==== Sys2Proof/Machine/Issue.lean ====
section
/-! DEFINITION. One host move (60_exceptions.md R218): a command word is decoded and run, or refused where it is
reserved; and what a program needs to run as the first thing after reset. -/

namespace Sys2Proof.Machine

/-- The cause of a Faulted block, in which nothing executes (60_exceptions.md R206). -/
def stuckCause (b : Block) : Option FaultCode :=
  match b with
  | .unloaded => none
  | .loaded _ => none
  | .faulted _ c => some c

/-- The command word w, with img on the side channel and rest still to come: a reserved word is refused
(30_encoding.md R84), any other runs (60_exceptions.md R208, tests 2 to 5). -/
def issueWord (w : CommandWord) (img : Image) (rest : List HostMove) (s : State) :
    Host.Outcome State Fault Refusal :=
  match decode w with
  | .error e => .next ((s.accept rest img).refuse (.reservedEncoding e))
  | .ok i => exec i (s.accept rest img)

/-- The host's next move m, with rest still to come (60_exceptions.md R218). -/
def makeMove (m : HostMove) (rest : List HostMove) (s : State) : Host.Outcome State Fault Refusal :=
  match m with
  | .command w img => issueWord w img rest s
  | .editRegs edits => State.editRegs { s with pending := rest } edits

/-- One step: nothing in Faulted (60_exceptions.md R208, test 1; logs 4 and 8); no change where the host makes no move (log 3); else
the host's next move. -/
def stepBlock (s : State) : Host.Outcome State Fault Refusal :=
  match stuckCause s.block with
  | some c => .fault (.stuck c)
  | none =>
    match s.pending with
    | [] => .next s
    | m :: rest => makeMove m rest s

/-- The shortest image that loads: 49179 zero bytes (95_test_vectors.md V-L4; log 10). -/
def shortestImage : Image := ⟨49179, []⟩

/-- The shortest all-zero image that loads as Larger (40_load.md R118; log 10). -/
def zeroLargerImage : Image := ⟨131103, []⟩

/-- The block as it is after the LOAD that the host must issue before any command but LOAD
(70_reset_and_hazards.md R233; log 10): an Unloaded block takes the record of the all-zero Larger image, any other
block is left as it is. -/
def loadFirst (b : Block) : Block :=
  match b with
  | .unloaded =>
    match loadImage zeroLargerImage with
    | .ok S => .loaded S
    | .error _ => .unloaded
  | .loaded S => .loaded S
  | .faulted S c => .faulted S c

/-- The block in which the command word w can run next: LOAD needs Unloaded, every other command needs Loaded
(60_exceptions.md R208, test 3). -/
def blockFor (w : CommandWord) (b : Block) : Block :=
  match decode w with
  | .ok .load => b
  | .ok (.lpeek8 _) => loadFirst b
  | .ok (.lpoke8 _ _) => loadFirst b
  | .ok (.lpeek16 _) => loadFirst b
  | .ok (.lpoke16 _ _) => loadFirst b
  | .ok (.bpeek8 _ _) => loadFirst b
  | .ok (.bpoke8 _ _ _) => loadFirst b
  | .ok (.bpeek16 _ _ _) => loadFirst b
  | .ok (.bpoke16 _ _ _ _) => loadFirst b
  | .ok (.setpage _) => loadFirst b
  | .error _ => b

/-- s with the table word w placed as the host's very next move, in a block that can run it (log 10). -/
def placeWord (s : State) (nbits w : Nat) : State :=
  match tableWord nbits w with
  | none => s
  | some word =>
    { s with block := blockFor word s.block,
             pending := .command word shortestImage :: s.pending }

end Sys2Proof.Machine
end

