-- ==== Sys2Proof/Machine/Step.lean ====
section
/-! DEFINITION. The step of the machine, and the placing of a word where the next step takes it. -/

namespace Sys2Proof.Machine

/-- One step of the block (20_memory.md R63): the host's next move. -/
def step (s : State) : Host.Outcome State Fault Refusal := stepBlock s

/-- s with the word placed as the host's next move (log 10). -/
def State.withFetchWord (s : State) (nbits w : Nat) : State := placeWord s nbits w

end Sys2Proof.Machine
end

