-- ==== Sys2Proof/Safety.lean ====
section
/-! DEFINITION. What claims are stated in: the logical address map as the spec tabulates it, the invariant of the
block, and a run that ends well. -/

namespace Sys2Proof.Machine

/-- The bank that the map of 20_memory.md R56 gives a logical address from 0x4000 on, by the range it lies in. -/
def mapBank (S : Record) (addr : Word) : Nat :=
  if addr.toNat < 0x8000 then S.pt.slot0.toNat
  else if addr.toNat < 0xC000 then S.pt.slot1.toNat
  else S.pt.slot2.toNat

/-- Byte o of bank b of the record (10_state.md R23), o below 0x4000. -/
def bankByte (S : Record) (b o : Nat) : Byte := Memory.read S.bank (b * 0x4000 + o)

/-- The byte a logical read returns, by the map of 20_memory.md R56. -/
def mapByte (S : Record) (addr : Word) : Byte :=
  if addr.toNat < 0x4000 then 0xFF else bankByte S (mapBank S addr) (addr.toNat % 0x4000)

/-- The page table and the extension agree with the configuration (10_state.md R26, R29, R30). -/
def Record.paged (S : Record) : Prop :=
  match S.fmt with
  | .smaller => S.pt = ⟨0, 1, 2⟩ ∧ S.ext = none
  | .larger => ∃ e, S.ext = some e ∧ S.pt.slot0 = 5 ∧ S.pt.slot1 = 2 ∧ S.pt.slot2.toNat = e.pcr.toNat % 8

/-- Bank storage is in canonical form and holds bytes of the N banks only (10_state.md R23; log 2). -/
def Record.stored (S : Record) : Prop :=
  Memory.wf S.bank ∧ ∀ c ∈ S.bank, c.1 < bankCount S.fmt * 0x4000

/-- The invariant of a record. -/
def Record.Inv (S : Record) : Prop := S.paged ∧ S.stored

/-- The record the block holds, if any (10_state.md R20). -/
def Block.record? (b : Block) : Option Record :=
  match b with
  | .unloaded => none
  | .loaded S => some S
  | .faulted S _ => some S

/-- The invariant of the machine: the record, if there is one, meets its own, and a Faulted block has given the
response FAULT with its code (60_exceptions.md R204). -/
def State.Inv (s : State) : Prop :=
  (∀ S, s.block.record? = some S → S.Inv) ∧
  ∀ S c, s.block = .faulted S c → s.response = some (faultResponse c)

/-- The block is Loaded and no command was refused (70_reset_and_hazards.md R238). -/
def State.endsWell (s : State) : Prop := (∃ S, s.block = .loaded S) ∧ s.refusal = none

/-- A run of k steps from s ends well in t (70_reset_and_hazards.md R238). -/
def RunEndsWell (k : Nat) (s t : State) : Prop := Host.Core.run Sys2Proof.core k s = .next t ∧ State.endsWell t

end Sys2Proof.Machine
end

