-- ==== Sys2Proof/Certificates/Slice0/Obligations.lean ====
section
/-! DEFINITION. The statements for the provers. Each docstring names the rules of spec/ it formalises. -/

open Sys2Proof Sys2Proof.Machine

/-! ## Reset and the invariant -/

/-- 70_reset_and_hazards.md R230: a new block instance is Unloaded and holds no values. -/
def Obligations.ResetIsUnloadedAndHoldsNothing : Prop :=
  State.reset.block = .unloaded ∧ State.reset.block.record? = none

/-- The invariant holds of a new block instance. -/
def Obligations.ResetMeetsInvariant : Prop := State.Inv State.reset

/-- Every step keeps the invariant: page table and extension as the configuration says, bank storage in canonical form
and inside the N banks, a Faulted block with its response (the canonical form is the model's, log 2). -/
def Obligations.StepKeepsInvariant : Prop :=
  ∀ s t : State, s.Inv → step s = .next t → t.Inv

/-- 10_state.md R26, R27, R30: after every step the page table is [0, 1, 2] in Smaller and [5, 2, pcr & 7] in Larger,
and every slot value is a valid bank index. -/
def Obligations.PageTableFollowsConfiguration : Prop :=
  ∀ s t : State, (∀ S, s.block.record? = some S → S.paged) → step s = .next t →
    ∀ S, t.block.record? = some S →
      S.paged ∧ S.pt.slot0.toNat < bankCount S.fmt ∧ S.pt.slot1.toNat < bankCount S.fmt ∧
        S.pt.slot2.toNat < bankCount S.fmt

/-! ## Encoding -/

/-- Decoding an encoded command gives it back, every operand at every value (30_encoding.md R81, R82). -/
def Obligations.DecodeInvertsEncode : Prop := ∀ i : Instr, decode (encode i) = .ok i

/-- 30_encoding.md R81, R82: match and mask of every command, and the fields it uses, by arithmetic on the word. -/
def Obligations.MatchedWordsDecodeWithTheirFields : Prop :=
  ∀ w : CommandWord,
    let bank : Byte := BitVec.ofNat 8 (w.toNat / 2 ^ 32)
    let addr : Word := BitVec.ofNat 16 (w.toNat / 2 ^ 16)
    let data : Word := BitVec.ofNat 16 w.toNat
    let data8 : Byte := BitVec.ofNat 8 w.toNat
    let wrap : Bool := w.toNat / 2 ^ 43 % 2 == 1
    (w &&& 0xF70000000000 = 0x100000000000 → decode w = .ok (.lpeek8 addr)) ∧
    (w &&& 0xF70000000000 = 0x200000000000 → decode w = .ok (.lpoke8 addr data8)) ∧
    (w &&& 0xF70000000000 = 0x300000000000 → decode w = .ok (.lpeek16 addr)) ∧
    (w &&& 0xF70000000000 = 0x400000000000 → decode w = .ok (.lpoke16 addr data)) ∧
    (w &&& 0xF70000000000 = 0x500000000000 → decode w = .ok (.bpeek8 bank addr)) ∧
    (w &&& 0xF70000000000 = 0x600000000000 → decode w = .ok (.bpoke8 bank addr data8)) ∧
    (w &&& 0xF70000000000 = 0x700000000000 → decode w = .ok (.bpeek16 bank addr wrap)) ∧
    (w &&& 0xF70000000000 = 0x800000000000 → decode w = .ok (.bpoke16 bank addr data wrap)) ∧
    (w &&& 0xF70000000000 = 0x900000000000 → decode w = .ok (.setpage data8)) ∧
    (w &&& 0xF70000000000 = 0xF00000000000 → decode w = .ok .load)

/-- 30_encoding.md R85: two words with the same OP and RSV that agree in the fields their command uses decode alike. -/
def Obligations.UnusedFieldsAreIgnored : Prop :=
  ∀ v w : CommandWord, v &&& 0xF70000000000 = w &&& 0xF70000000000 →
    let op := w.toNat / 2 ^ 44
    ((op ∈ [1, 3] → v &&& 0x0000FFFF0000 = w &&& 0x0000FFFF0000 → decode v = decode w) ∧
     (op = 2 → v &&& 0x0000FFFF00FF = w &&& 0x0000FFFF00FF → decode v = decode w) ∧
     (op = 4 → v &&& 0x0000FFFFFFFF = w &&& 0x0000FFFFFFFF → decode v = decode w) ∧
     (op = 5 → v &&& 0x00FFFFFF0000 = w &&& 0x00FFFFFF0000 → decode v = decode w) ∧
     (op = 6 → v &&& 0x00FFFFFF00FF = w &&& 0x00FFFFFF00FF → decode v = decode w) ∧
     (op = 7 → v &&& 0x08FFFFFF0000 = w &&& 0x08FFFFFF0000 → decode v = decode w) ∧
     (op = 8 → v &&& 0x08FFFFFFFFFF = w &&& 0x08FFFFFFFFFF → decode v = decode w) ∧
     (op = 9 → v &&& 0x0000000000FF = w &&& 0x0000000000FF → decode v = decode w) ∧
     (op = 15 → decode v = decode w))

/-- 30_encoding.md R84: a word with OP 0, OP 0xA to 0xE or RSV ≠ 000 is refused: the block is unchanged, there is no
response, and a refusal mark stands. Every other word is a command. -/
def Obligations.ReservedWordsAreRefused : Prop :=
  ∀ w : CommandWord,
    let reserved := w.toNat / 2 ^ 44 = 0 ∨ (10 ≤ w.toNat / 2 ^ 44 ∧ w.toNat / 2 ^ 44 ≤ 14) ∨ w.toNat / 2 ^ 40 % 8 ≠ 0
    (¬ reserved → ∃ i, decode w = .ok i) ∧
    (reserved → ∀ (s : State) (img : Image) (rest : List HostMove),
      (∀ S c, s.block ≠ .faulted S c) → s.pending = .command w img :: rest →
      ∃ t, step s = .next t ∧ t.block = s.block ∧ t.response = none ∧ t.refusal ≠ none ∧ t.pending = rest)

/-- One word of each family, from spec/95_test_vectors.md (V-E6, V-W8, V-B12, V-B21, V-P2 and the LOAD word). -/
def Obligations.SampleWordsDecode : Prop :=
  decode 0x18FFC000FFFF = .ok (.lpeek8 0xC000) ∧
  decode 0x40007FFFBEEF = .ok (.lpoke16 0x7FFF 0xBEEF) ∧
  decode 0x78033FFF0000 = .ok (.bpeek16 3 0x3FFF true) ∧
  decode 0x88073FFFCAFE = .ok (.bpoke16 7 0x3FFF 0xCAFE true) ∧
  decode 0x9000000000FF = .ok (.setpage 0xFF) ∧
  decode 0xF00000000000 = .ok .load

/-! ## The step -/

/-- Outside Faulted, a step whose next host move is a word that decodes to i is exec of i, with the word taken off the
host's moves and its image on the side channel (logs 3 and 7). -/
def Obligations.StepRunsTheDecodedCommand : Prop :=
  ∀ (s : State) (w : CommandWord) (img : Image) (rest : List HostMove) (i : Instr),
    (∀ S c, s.block ≠ .faulted S c) → s.pending = .command w img :: rest → decode w = .ok i →
    step s = exec i { s with pending := rest, image := img }

/-- Outside Faulted, a step without a host move changes nothing (the model's choice, log 3). -/
def Obligations.StepWithoutAMoveIdles : Prop :=
  ∀ s : State, (∀ S c, s.block ≠ .faulted S c) → s.pending = [] → step s = .next s

/-- In Faulted no command executes, LOAD included (60_exceptions.md section 3, R206), and no step gives a next state. R206
speaks of commands only. That a step is stuck as well where the host's move is an edit of regs (log 8), or where the
host makes no move (log 4), is the model's choice, and so is the form of the stop, the outcome fault (log 4). -/
def Obligations.FaultedBlockIsStuck : Prop :=
  ∀ (i : Instr) (s : State) (S : Record) (c : FaultCode), s.block = .faulted S c →
    exec i s = .fault (.stuck c) ∧ step s = .fault (.stuck c)

/-- 60_exceptions.md R218: the host's edit of one field of regs changes that field alone and gets nothing back. -/
def Obligations.HostEditChangesOneRegister : Prop :=
  ∀ (s : State) (S : Record) (rest : List HostMove) (e : RegEdit),
    s.block = .loaded S → s.pending = .editRegs [e] :: rest →
    step s = .next { s with
      pending := rest,
      block := .loaded { S with
        regs := match e with
          | .i v => { S.regs with i := v }
          | .hl' v => { S.regs with hl' := v }
          | .de' v => { S.regs with de' := v }
          | .bc' v => { S.regs with bc' := v }
          | .af' v => { S.regs with af' := v }
          | .hl v => { S.regs with hl := v }
          | .de v => { S.regs with de := v }
          | .bc v => { S.regs with bc := v }
          | .iy v => { S.regs with iy := v }
          | .ix v => { S.regs with ix := v }
          | .iff v => { S.regs with iff := v }
          | .r v => { S.regs with r := v }
          | .af v => { S.regs with af := v }
          | .sp v => { S.regs with sp := v }
          | .im v => { S.regs with im := v }
          | .border v => { S.regs with border := v } } }

/-! ## Logical access -/

/-- 41_logical_access.md R142: LPEEK8 returns the mapped byte, zero-extended, and changes nothing but the response. -/
def Obligations.Lpeek8ReturnsMappedByte : Prop :=
  ∀ (s : State) (S : Record) (addr : Word), s.block = .loaded S →
    exec (.lpeek8 addr) s = .next { s with response := some ⟨.ok, 0, (mapByte S addr).setWidth 16⟩ }

/-- 41_logical_access.md R143: LPOKE8 from 0x4000 on writes the mapped byte and no other; below, it faults with
AddressOutOfRange and the record is unchanged. -/
def Obligations.Lpoke8WritesMappedByte : Prop :=
  ∀ (s : State) (S : Record) (addr : Word) (v : Byte), s.block = .loaded S → Memory.wf S.bank →
    (0x4000 ≤ addr.toNat → ∃ m : Memory,
      exec (.lpoke8 addr v) s =
        .next { s with block := .loaded { S with bank := m }, response := some ⟨.ok, 0, 0⟩ } ∧
      ∀ a, Memory.read m a =
        if a = mapBank S addr * 0x4000 + addr.toNat % 0x4000 then v else Memory.read S.bank a) ∧
    (addr.toNat < 0x4000 →
      exec (.lpoke8 addr v) s =
        .next { s with block := .faulted S .addressOutOfRange, response := some ⟨.fault, 1, 0⟩ })

/-- 41_logical_access.md R144: LPEEK16 joins the mapped bytes of addr (low) and addr + 1 (high), each translated on its
own; at 0xFFFF it faults with AddressOutOfRange. -/
def Obligations.Lpeek16JoinsTwoMappedBytes : Prop :=
  ∀ (s : State) (S : Record) (addr : Word), s.block = .loaded S →
    (addr.toNat < 0xFFFF →
      exec (.lpeek16 addr) s =
        .next { s with response := some ⟨.ok, 0, (mapByte S (addr + 1) ++ mapByte S addr : BitVec 16)⟩ }) ∧
    (addr.toNat = 0xFFFF →
      exec (.lpeek16 addr) s =
        .next { s with block := .faulted S .addressOutOfRange, response := some ⟨.fault, 1, 0⟩ })

/-- 41_logical_access.md R145: LPOKE16 writes the low byte at addr and the high byte at addr + 1, each translated on its
own, and no other byte; at 0xFFFF and below 0x4000 (0x3FFF too) it faults with AddressOutOfRange, nothing written. -/
def Obligations.Lpoke16WritesTwoMappedBytes : Prop :=
  ∀ (s : State) (S : Record) (addr v : Word), s.block = .loaded S → Memory.wf S.bank →
    (0x4000 ≤ addr.toNat → addr.toNat < 0xFFFF → ∃ m : Memory,
      exec (.lpoke16 addr v) s =
        .next { s with block := .loaded { S with bank := m }, response := some ⟨.ok, 0, 0⟩ } ∧
      ∀ a, Memory.read m a =
        if a = mapBank S addr * 0x4000 + addr.toNat % 0x4000 then BitVec.ofNat 8 v.toNat
        else if a = mapBank S (addr + 1) * 0x4000 + (addr.toNat + 1) % 0x4000 then BitVec.ofNat 8 (v.toNat / 256)
        else Memory.read S.bank a) ∧
    (addr.toNat = 0xFFFF ∨ addr.toNat < 0x4000 →
      exec (.lpoke16 addr v) s =
        .next { s with block := .faulted S .addressOutOfRange, response := some ⟨.fault, 1, 0⟩ })

/-- spec/95_test_vectors.md X3, and its 16-bit form: what a logical write stores, the logical read of its width at the
same address returns. -/
def Obligations.LogicalWriteThenReadReturnsIt : Prop :=
  ∀ (s : State) (S : Record), s.block = .loaded S → Memory.wf S.bank →
    (∀ (addr : Word) (v : Byte), 0x4000 ≤ addr.toNat →
      ∃ t u, exec (.lpoke8 addr v) s = .next t ∧ exec (.lpeek8 addr) t = .next u ∧
        u.response = some ⟨.ok, 0, v.setWidth 16⟩) ∧
    (∀ addr v : Word, 0x4000 ≤ addr.toNat → addr.toNat < 0xFFFF →
      ∃ t u, exec (.lpoke16 addr v) s = .next t ∧ exec (.lpeek16 addr) t = .next u ∧
        u.response = some ⟨.ok, 0, v⟩)

/-- 20_memory.md R51, R52, R53: below 0x4000 the translator gives Unmapped; from there on it gives the bank of the
range's slot and addr & 0x3FFF, and under the page-table invariant that bank exists. -/
def Obligations.TranslatorNamesAnExistingBankByte : Prop :=
  ∀ (S : Record) (addr : Word), S.paged →
    (addr.toNat < 0x4000 → translate S.pt addr = none) ∧
    (0x4000 ≤ addr.toNat → ∃ p, translate S.pt addr = some p ∧ p.bank = mapBank S addr ∧
      p.off.toNat = addr.toNat % 0x4000 ∧ p.bank < bankCount S.fmt ∧
      p.bank * 0x4000 + p.off.toNat < (match S.fmt with | .smaller => 0xC000 | .larger => 0x20000))

/-! ## Bank-relative access -/

/-- 42_bank_access.md R161: BPEEK8 returns byte ADDR & 0x3FFF of the bank; BankOutOfRange from N on. -/
def Obligations.Bpeek8ReturnsBankByte : Prop :=
  ∀ (s : State) (S : Record) (bank : Byte) (addr : Word), s.block = .loaded S →
    (bank.toNat < bankCount S.fmt →
      exec (.bpeek8 bank addr) s =
        .next { s with response := some ⟨.ok, 0, (bankByte S bank.toNat (addr.toNat % 0x4000)).setWidth 16⟩ }) ∧
    (bankCount S.fmt ≤ bank.toNat →
      exec (.bpeek8 bank addr) s =
        .next { s with block := .faulted S .bankOutOfRange, response := some ⟨.fault, 2, 0⟩ })

/-- 42_bank_access.md R162: BPOKE8 writes byte ADDR & 0x3FFF of the bank and no other; BankOutOfRange from N on,
nothing written. -/
def Obligations.Bpoke8WritesBankByte : Prop :=
  ∀ (s : State) (S : Record) (bank : Byte) (addr : Word) (v : Byte), s.block = .loaded S → Memory.wf S.bank →
    (bank.toNat < bankCount S.fmt → ∃ m : Memory,
      exec (.bpoke8 bank addr v) s =
        .next { s with block := .loaded { S with bank := m }, response := some ⟨.ok, 0, 0⟩ } ∧
      ∀ a, Memory.read m a =
        if a = bank.toNat * 0x4000 + addr.toNat % 0x4000 then v else Memory.read S.bank a) ∧
    (bankCount S.fmt ≤ bank.toNat →
      exec (.bpoke8 bank addr v) s =
        .next { s with block := .faulted S .bankOutOfRange, response := some ⟨.fault, 2, 0⟩ })

/-- 42_bank_access.md R163, R164: BPEEK16 joins byte o of the bank (low) and the byte at o + 1, or after the last offset
at offset 0 of the same bank (W = 1) or of bank + 1 (W = 0); BankOutOfRange where either bank is missing. -/
def Obligations.Bpeek16JoinsTwoBankBytes : Prop :=
  ∀ (s : State) (S : Record) (bank : Byte) (addr : Word) (wrap : Bool), s.block = .loaded S →
    let o := addr.toNat % 0x4000
    let missing := bankCount S.fmt ≤ bank.toNat ∨ (o = 0x3FFF ∧ wrap = false ∧ bank.toNat + 1 = bankCount S.fmt)
    let hi := if o ≠ 0x3FFF then bankByte S bank.toNat (o + 1)
      else if wrap then bankByte S bank.toNat 0 else bankByte S (bank.toNat + 1) 0
    (¬ missing →
      exec (.bpeek16 bank addr wrap) s =
        .next { s with response := some ⟨.ok, 0, (hi ++ bankByte S bank.toNat o : BitVec 16)⟩ }) ∧
    (missing →
      exec (.bpeek16 bank addr wrap) s =
        .next { s with block := .faulted S .bankOutOfRange, response := some ⟨.fault, 2, 0⟩ })

/-- 42_bank_access.md R163, R165, R167: BPOKE16 writes the low byte at (bank, o) and the high byte at the second place,
and no other; BankOutOfRange where either bank is missing, nothing written. -/
def Obligations.Bpoke16WritesTwoBankBytes : Prop :=
  ∀ (s : State) (S : Record) (bank : Byte) (addr v : Word) (wrap : Bool), s.block = .loaded S → Memory.wf S.bank →
    let o := addr.toNat % 0x4000
    let missing := bankCount S.fmt ≤ bank.toNat ∨ (o = 0x3FFF ∧ wrap = false ∧ bank.toNat + 1 = bankCount S.fmt)
    let second := if o ≠ 0x3FFF then bank.toNat * 0x4000 + o + 1
      else if wrap then bank.toNat * 0x4000 else (bank.toNat + 1) * 0x4000
    (¬ missing → ∃ m : Memory,
      exec (.bpoke16 bank addr v wrap) s =
        .next { s with block := .loaded { S with bank := m }, response := some ⟨.ok, 0, 0⟩ } ∧
      ∀ a, Memory.read m a =
        if a = bank.toNat * 0x4000 + o then BitVec.ofNat 8 v.toNat
        else if a = second then BitVec.ofNat 8 (v.toNat / 256)
        else Memory.read S.bank a) ∧
    (missing →
      exec (.bpoke16 bank addr v wrap) s =
        .next { s with block := .faulted S .bankOutOfRange, response := some ⟨.fault, 2, 0⟩ })

/-- What a bank-relative write stores, the bank-relative read of its width with the same operands returns, wrapped or
not (from 42_bank_access.md R161 to R165). -/
def Obligations.BankWriteThenReadReturnsIt : Prop :=
  ∀ (s t : State) (S S' : Record) (bank : Byte) (addr : Word), s.block = .loaded S → Memory.wf S.bank →
    (∀ v : Byte, exec (.bpoke8 bank addr v) s = .next t → t.block = .loaded S' →
      ∃ u, exec (.bpeek8 bank addr) t = .next u ∧ u.response = some ⟨.ok, 0, v.setWidth 16⟩) ∧
    (∀ (v : Word) (wrap : Bool), exec (.bpoke16 bank addr v wrap) s = .next t → t.block = .loaded S' →
      ∃ u, exec (.bpeek16 bank addr wrap) t = .next u ∧ u.response = some ⟨.ok, 0, v⟩)

/-- 42_bank_access.md R166: the bank-relative commands neither read nor write the page table or pcr: on two records that
differ in these alone they answer the same and leave the same banks, and what differed stays as it was. -/
def Obligations.BankCommandsIgnorePaging : Prop :=
  ∀ (s : State) (S : Record) (pt' : PageTable) (ext' : Option Extension) (i : Instr),
    s.block = .loaded S →
    (match i with
      | .bpeek8 _ _ => True
      | .bpoke8 _ _ _ => True
      | .bpeek16 _ _ _ => True
      | .bpoke16 _ _ _ _ => True
      | _ => False) →
    ∃ t t' : State, ∃ R : Record,
      exec i s = .next t ∧ exec i { s with block := .loaded { S with pt := pt', ext := ext' } } = .next t' ∧
      t.response = t'.response ∧ t.block.record? = some R ∧ R.pt = S.pt ∧ R.ext = S.ext ∧
      t'.block.record? = some { R with pt := pt', ext := ext' }

/-! ## The two views of a bank byte -/

/-- 20_memory.md R71: for every address from 0x4000 on, LPEEK8 and BPEEK8 of the mapped bank at addr & 0x3FFF end in the
same state, the same byte in the response. -/
def Obligations.LogicalAndBankReadsAgree : Prop :=
  ∀ (s : State) (S : Record) (addr : Word), s.block = .loaded S → S.paged → 0x4000 ≤ addr.toNat →
    ∃ t, exec (.lpeek8 addr) s = .next t ∧
      exec (.bpeek8 (BitVec.ofNat 8 (mapBank S addr)) (addr &&& 0x3FFF)) s = .next t ∧
      t.response = some ⟨.ok, 0, (mapByte S addr).setWidth 16⟩

/-- 20_memory.md R72: a bank-relative write to a mapped bank is read by LPEEK8 at the mapped address, and a logical
write is read by BPEEK8 at the mapped bank and offset. -/
def Obligations.LogicalAndBankWritesCommute : Prop :=
  ∀ (s : State) (S : Record) (addr : Word) (v : Byte), s.block = .loaded S → S.Inv → 0x4000 ≤ addr.toNat →
    (∃ t u, exec (.bpoke8 (BitVec.ofNat 8 (mapBank S addr)) (addr &&& 0x3FFF) v) s = .next t ∧
      exec (.lpeek8 addr) t = .next u ∧ u.response = some ⟨.ok, 0, v.setWidth 16⟩) ∧
    (∃ t u, exec (.lpoke8 addr v) s = .next t ∧
      exec (.bpeek8 (BitVec.ofNat 8 (mapBank S addr)) (addr &&& 0x3FFF)) t = .next u ∧
      u.response = some ⟨.ok, 0, v.setWidth 16⟩)

/-- 20_memory.md R58: two logical addresses of the same offset whose slots name the same bank alias (windows 1 and 3 in
Larger with pcr & 7 = 5, windows 2 and 3 with pcr & 7 = 2): a write through either is read through the other. In Smaller
no two windows alias. -/
def Obligations.WindowsOfOneBankAlias : Prop :=
  ∀ (s : State) (S : Record) (addr addr' : Word) (v : Byte), s.block = .loaded S → S.Inv →
    0x4000 ≤ addr.toNat → 0x4000 ≤ addr'.toNat → addr.toNat % 0x4000 = addr'.toNat % 0x4000 →
    (mapBank S addr = mapBank S addr' →
      ∃ t u, exec (.lpoke8 addr v) s = .next t ∧ exec (.lpeek8 addr') t = .next u ∧
        u.response = some ⟨.ok, 0, v.setWidth 16⟩) ∧
    (∀ e, S.ext = some e → e.pcr.toNat % 8 = 5 → addr.toNat < 0x8000 → 0xC000 ≤ addr'.toNat →
      mapBank S addr = mapBank S addr') ∧
    (∀ e, S.ext = some e → e.pcr.toNat % 8 = 2 → 0x8000 ≤ addr.toNat → addr.toNat < 0xC000 → 0xC000 ≤ addr'.toNat →
      mapBank S addr = mapBank S addr') ∧
    (S.fmt = .smaller → mapBank S addr = mapBank S addr' → addr = addr')

/-- 20_memory.md R65: repeating a write or SETPAGE that completed leaves the same record. -/
def Obligations.WritesAreIdempotent : Prop :=
  ∀ (s t : State) (S S' : Record) (i : Instr), s.block = .loaded S → Memory.wf S.bank →
    (match i with
      | .lpoke8 _ _ => True
      | .lpoke16 _ _ => True
      | .bpoke8 _ _ _ => True
      | .bpoke16 _ _ _ _ => True
      | .setpage _ => True
      | _ => False) →
    exec i s = .next t → t.block = .loaded S' → exec i t = .next t

/-! ## Paging control -/

/-- 43_paging_control.md R180, R181: SETPAGE in Larger stores all 8 bits in pcr and the low 3 in pt[2] and changes nothing
else; in Smaller it faults with PagingUnsupported, the record unchanged. -/
def Obligations.SetpageWritesPcrAndSlot2 : Prop :=
  ∀ (s : State) (S : Record) (v : Byte), s.block = .loaded S → S.paged →
    (S.fmt = .larger → ∃ e, S.ext = some e ∧
      exec (.setpage v) s = .next { s with
        block := .loaded { S with
          ext := some { e with pcr := v },
          pt := { S.pt with slot2 := BitVec.ofNat 3 (v.toNat % 8) } },
        response := some ⟨.ok, 0, 0⟩ }) ∧
    (S.fmt = .smaller →
      exec (.setpage v) s =
        .next { s with block := .faulted S .pagingUnsupported, response := some ⟨.fault, 3, 0⟩ })

/-- 43_paging_control.md R183: SETPAGE changes no bank byte, and the very next command sees the new mapping of window 3:
LPEEK8 there answers as BPEEK8 of bank v & 7. -/
def Obligations.SetpageRemapsWindow3AtOnce : Prop :=
  ∀ (s : State) (S : Record) (v : Byte) (addr : Word), s.block = .loaded S → S.paged → S.fmt = .larger →
    0xC000 ≤ addr.toNat →
    ∃ t u S', exec (.setpage v) s = .next t ∧ t.block = .loaded S' ∧ S'.bank = S.bank ∧
      exec (.lpeek8 addr) t = .next u ∧ exec (.bpeek8 (v &&& 7) addr) t = .next u ∧
      u.response = some ⟨.ok, 0, (bankByte S (v.toNat % 8) (addr.toNat % 0x4000)).setWidth 16⟩

/-! ## LOAD -/

/-- 40_load.md R111, R114: an image of exactly 49179 bytes loads as Smaller: three banks in order, pt = [0, 1, 2], no
extension. -/
def Obligations.LoadOfSmallerImage : Prop :=
  ∀ s : State, s.block = .unloaded → s.image.length = 49179 →
    ∃ S, exec .load s = .next { s with block := .loaded S, response := some ⟨.ok, 0, 0⟩ } ∧
      S.fmt = .smaller ∧ S.pt = ⟨0, 1, 2⟩ ∧ S.ext = none ∧
      ∀ b o, b < 3 → o < 16384 → bankByte S b o = Image.byteAt s.image (27 + 16384 * b + o)

/-- 40_load.md R111, R116, R117, R118, R120, R124: an image longer than 49179 bytes that holds its extension and its 5
(or, where ctl & 7 is 2 or 5, 6) trailing banks loads as Larger. Chunk 3 goes to bank ctl & 7 last, chunk 1 to bank 5,
chunk 2 to bank 2, and each other bank takes the trailing block of its rank among {0, 1, 3, 4, 6, 7} without ctl & 7. -/
def Obligations.LoadOfLargerImage : Prop :=
  ∀ s : State, s.block = .unloaded →
    let ctl := Image.byteAt s.image 49181
    let k := ctl.toNat % 8
    let n := if k = 2 ∨ k = 5 then 6 else 5
    49183 + 16384 * n ≤ s.image.length →
    ∃ S, exec .load s = .next { s with block := .loaded S, response := some ⟨.ok, 0, 0⟩ } ∧
      S.fmt = .larger ∧ S.pt = ⟨5, 2, BitVec.ofNat 3 k⟩ ∧
      S.ext = some ⟨ctl, (Image.byteAt s.image 49180 ++ Image.byteAt s.image 49179 : BitVec 16),
        Image.byteAt s.image 49182⟩ ∧
      ∀ b o, b < 8 → o < 16384 →
        bankByte S b o = Image.byteAt s.image
          (o + if b = k then 32795 else if b = 5 then 27 else if b = 2 then 16411
            else 49183 + 16384 * ([0, 1, 3, 4, 6, 7].filter (fun c => c ≠ k ∧ c < b)).length)

/-- 40_load.md R112, R115, R118, R122: every shorter image ends in the decode error TruncatedInput (code 1) and the block
stays Unloaded. -/
def Obligations.LoadOfTruncatedImage : Prop :=
  ∀ s : State, s.block = .unloaded →
    let k := (Image.byteAt s.image 49181).toNat % 8
    (s.image.length < 49179 ∨ (49180 ≤ s.image.length ∧ s.image.length ≤ 49182) ∨
      (49183 ≤ s.image.length ∧ s.image.length < 49183 + 16384 * (if k = 2 ∨ k = 5 then 6 else 5))) →
    exec .load s = .next { s with response := some ⟨.decodeError, 1, 0⟩ }

/-- 30_encoding.md R93, 40_load.md R113: the register record of a loaded image, field by field in
the order I, HL', DE', BC', AF', HL, DE, BC, IY, IX, IFF, R, AF, SP, IM, border. -/
def Obligations.LoadDecodesTheHeader : Prop :=
  ∀ (s t : State) (S : Record), s.block = .unloaded → exec .load s = .next t → t.block = .loaded S →
    let at8 : Nat → Byte := Image.byteAt s.image
    let at16 : Nat → BitVec 16 := fun o => at8 (o + 1) ++ at8 o
    S.regs = ⟨at8 0, at16 1, at16 3, at16 5, at16 7, at16 9, at16 11, at16 13, at16 15, at16 17, at8 19, at8 20,
      at16 21, at16 23, at8 25, at8 26⟩

/-- 40_load.md R119: bytes beyond the last bank that LOAD needs are ignored: two Larger images that agree on the bytes
below it load the same record. -/
def Obligations.LoadIgnoresTrailingBytes : Prop :=
  ∀ (s : State) (img img' : Image), s.block = .unloaded →
    let k := (Image.byteAt img 49181).toNat % 8
    let needed := 49183 + 16384 * (if k = 2 ∨ k = 5 then 6 else 5)
    needed ≤ img.length → needed ≤ img'.length →
    (∀ o, o < needed → Image.byteAt img o = Image.byteAt img' o) →
    ∃ S, exec .load { s with image := img } =
        .next { s with image := img, block := .loaded S, response := some ⟨.ok, 0, 0⟩ } ∧
      exec .load { s with image := img' } =
        .next { s with image := img', block := .loaded S, response := some ⟨.ok, 0, 0⟩ }

/-- 40_load.md R122: after a decode error the host may issue LOAD again, and an image that loads does load. -/
def Obligations.LoadMayBeRetriedAfterDecodeError : Prop :=
  ∀ (s : State) (w w' : CommandWord) (img img' : Image) (rest : List HostMove),
    s.block = .unloaded → s.pending = .command w img :: .command w' img' :: rest →
    decode w = .ok .load → decode w' = .ok .load → img.length < 49179 → img'.length = 49179 →
    (∃ t, step s = .next t ∧ t.block = .unloaded ∧ t.response = some ⟨.decodeError, 1, 0⟩) ∧
    ∃ t S, Host.Core.run Sys2Proof.core 2 s = .next t ∧ t.block = .loaded S ∧ S.fmt = .smaller ∧
      t.response = some ⟨.ok, 0, 0⟩ ∧ t.refusal = s.refusal

/-- 40_load.md R123: LOAD in Loaded is refused, the block unchanged. -/
def Obligations.LoadWhenLoadedIsRefused : Prop :=
  ∀ (s : State) (S : Record), s.block = .loaded S →
    ∃ t, exec .load s = .next t ∧ t.block = s.block ∧ t.response = none ∧ t.refusal ≠ none

/-- 10_state.md R37, 60_exceptions.md R207: a command other than LOAD in Unloaded is refused, the block unchanged. -/
def Obligations.CommandsBeforeLoadAreRefused : Prop :=
  ∀ (s : State) (i : Instr), s.block = .unloaded → i ≠ .load →
    ∃ t, exec i s = .next t ∧ t.block = .unloaded ∧ t.response = none ∧ t.refusal ≠ none

/-! ## What a command may change -/

/-- 10_state.md R20: only a successful LOAD leaves Unloaded, and it leads to Loaded; only a fault leaves Loaded, and it
leads to Faulted with the record as it was; no command leaves Faulted. -/
def Obligations.BlockMovesOnlyAsTabulated : Prop :=
  ∀ (i : Instr) (s t : State), exec i s = .next t →
    (s.block = .unloaded → t.block ≠ s.block →
      i = .load ∧ (∃ S, t.block = .loaded S) ∧ t.response = some ⟨.ok, 0, 0⟩) ∧
    (∀ S, s.block = .loaded S →
      (∃ S', t.block = .loaded S') ∨ ∃ c, t.block = .faulted S c ∧ t.response = some (faultResponse c)) ∧
    (∀ S c, s.block ≠ .faulted S c)

/-- 10_state.md R38, and R22, R25, R31, R32; 43_paging_control.md R182: what each command may change in Loaded. No
command changes fmt, regs, ext_pc, ext_aux, pt[0], pt[1]; only SETPAGE changes pcr or pt[2], and it changes no bank
byte; only the four writes change a bank byte; the side channel, the host's other moves and the refusal mark stay. -/
def Obligations.CommandFrame : Prop :=
  ∀ (i : Instr) (s t : State) (S S' : Record), s.block = .loaded S → i ≠ .load → exec i s = .next t →
    t.block.record? = some S' →
    (t.pending = s.pending ∧ t.image = s.image ∧ t.refusal = s.refusal) ∧
    (S'.fmt = S.fmt ∧ S'.regs = S.regs ∧ S'.pt.slot0 = S.pt.slot0 ∧ S'.pt.slot1 = S.pt.slot1 ∧
      S'.ext.map Extension.pc = S.ext.map Extension.pc ∧ S'.ext.map Extension.aux = S.ext.map Extension.aux) ∧
    ((∀ v, i ≠ .setpage v) → S'.ext = S.ext ∧ S'.pt = S.pt) ∧
    ((∀ a v, i ≠ .lpoke8 a v) → (∀ a v, i ≠ .lpoke16 a v) → (∀ b a v, i ≠ .bpoke8 b a v) →
      (∀ b a v w, i ≠ .bpoke16 b a v w) → S'.bank = S.bank)

/-- 60_exceptions.md R204: a command that faults leaves the record S as it was, moves the block to Faulted(S, code),
answers FAULT with the code, and changes nothing else. -/
def Obligations.FaultEntryLeavesTheRecord : Prop :=
  ∀ (i : Instr) (s t : State) (S S' : Record) (c : FaultCode), s.block = .loaded S → exec i s = .next t →
    t.block = .faulted S' c →
    let number := match c with
      | .addressOutOfRange => 1
      | .bankOutOfRange => 2
      | .pagingUnsupported => 3
    S' = S ∧ t = { s with block := .faulted S c, response := some ⟨.fault, number, 0⟩ }

/-- 60_exceptions.md R209: which fault each command can raise, and which can end in a decode error. -/
def Obligations.FaultsByCommand : Prop :=
  ∀ (i : Instr) (s t : State), exec i s = .next t →
    (∀ S c, t.block = .faulted S c →
      match i with
      | .lpeek8 _ => False
      | .lpoke8 _ _ => c = .addressOutOfRange
      | .lpeek16 _ => c = .addressOutOfRange
      | .lpoke16 _ _ => c = .addressOutOfRange
      | .bpeek8 _ _ => c = .bankOutOfRange
      | .bpoke8 _ _ _ => c = .bankOutOfRange
      | .bpeek16 _ _ _ => c = .bankOutOfRange
      | .bpoke16 _ _ _ _ => c = .bankOutOfRange
      | .setpage _ => c = .pagingUnsupported
      | .load => False) ∧
    (i ≠ .load → ∀ r, t.response = some r → r.status ≠ .decodeError)

/-- 30_encoding.md R86, 60_exceptions.md R200: in Loaded every command but LOAD is answered: OK with code 0 and the block
Loaded, or FAULT with data 0 and the block Faulted; a write and SETPAGE answer data 0. -/
def Obligations.LoadedBlockAnswersEveryCommand : Prop :=
  ∀ (i : Instr) (s : State) (S : Record), s.block = .loaded S → i ≠ .load →
    ∃ t r, exec i s = .next t ∧ t.response = some r ∧
      ((r.status = .ok ∧ r.code = 0 ∧ ∃ S', t.block = .loaded S') ∨
       (r.status = .fault ∧ r.data = 0 ∧ ∃ c, r.code = faultNumber c ∧ t.block = .faulted S c)) ∧
      ((∀ a, i ≠ .lpeek8 a) → (∀ a, i ≠ .lpeek16 a) → (∀ b a, i ≠ .bpeek8 b a) → (∀ b a w, i ≠ .bpeek16 b a w) →
        r.data = 0)

/-- 10_state.md R31, R32: nothing in the block depends on regs, ext_pc or ext_aux: on two records that differ in these
alone, every command but LOAD answers the same and leaves records that differ in the same way. -/
def Obligations.PassthroughStateHasNoEffect : Prop :=
  ∀ (i : Instr) (s : State) (S : Record) (regs' : Regs) (pc' : Word) (aux' : Byte), s.block = .loaded S → i ≠ .load →
    let change : Record → Record := fun R =>
      { R with regs := regs', ext := R.ext.map (fun e => { e with pc := pc', aux := aux' }) }
    ∃ t t' R, exec i s = .next t ∧ exec i { s with block := .loaded (change S) } = .next t' ∧
      t.response = t'.response ∧ t.block.record? = some R ∧ t'.block.record? = some (change R)

/-! ## Whole runs -/

/-- 70_reset_and_hazards.md R234: once a block holds a record, its configuration is fixed for every later state of the
run, and so are pt[0] and pt[1] (10_state.md R25). -/
def Obligations.ConfigurationIsFixedForLife : Prop :=
  ∀ (k : Nat) (s t : State) (S : Record), s.block.record? = some S → Host.Core.run Sys2Proof.core k s = .next t →
    ∃ S', t.block.record? = some S' ∧ S'.fmt = S.fmt ∧ S'.pt.slot0 = S.pt.slot0 ∧ S'.pt.slot1 = S.pt.slot1

/-- 60_exceptions.md R207: a refusal mark is kept for the rest of the run (that the first reason is the one kept is the
model's choice, log 5). -/
def Obligations.RefusalMarkIsKept : Prop :=
  ∀ (k : Nat) (s t : State) (r : RefusalReason), s.refusal = some r → Host.Core.run Sys2Proof.core k s = .next t →
    t.refusal = some r

/-- 70_reset_and_hazards.md R238: along a run that ends well, no state is Faulted and no command was refused. -/
def Obligations.GoodRunHasNoFaultAndNoRefusal : Prop :=
  ∀ (k j : Nat) (s t : State), RunEndsWell k s t → j ≤ k →
    ∃ u, Host.Core.run Sys2Proof.core j s = .next u ∧ u.refusal = none ∧ ∀ S c, u.block ≠ .faulted S c

/-- 70_reset_and_hazards.md R238: along a run that ends well, from the first Loaded state on every state is Loaded and
every command issued there has answered OK. -/
def Obligations.GoodRunAnswersOkOnceLoaded : Prop :=
  ∀ (k j : Nat) (s t u v : State) (w : CommandWord) (img : Image) (rest : List HostMove),
    RunEndsWell k s t → j < k → Host.Core.run Sys2Proof.core j s = .next u → (∃ S, u.block = .loaded S) →
    u.pending = .command w img :: rest → step u = .next v →
    (∃ S, v.block = .loaded S) ∧ ∃ d, v.response = some ⟨.ok, 0, d⟩
end

