-- ==== Sys2Proof/Laws/Decode.lean ====
section
/-! SUPPORT. The fields of a command word by arithmetic, and of a word the encoder lays out. -/

namespace Sys2Proof

section Fields

variable (w : CommandWord)

theorem fieldOp_toNat : (fieldOp w).toNat = w.toNat / 2 ^ 44 := by
  have := w.isLt
  simp [fieldOp, Nat.shiftRight_eq_div_pow]
  omega

theorem fieldRsv_toNat : (fieldRsv w).toNat = w.toNat / 2 ^ 40 % 8 := by
  simp [fieldRsv, Nat.shiftRight_eq_div_pow]

theorem fieldBank_eq : fieldBank w = BitVec.ofNat 8 (w.toNat / 2 ^ 32) := by
  apply BitVec.eq_of_toNat_eq
  simp [fieldBank, Nat.shiftRight_eq_div_pow]

theorem fieldAddr_eq : fieldAddr w = BitVec.ofNat 16 (w.toNat / 2 ^ 16) := by
  apply BitVec.eq_of_toNat_eq
  simp [fieldAddr, Nat.shiftRight_eq_div_pow]

theorem fieldData_eq : fieldData w = BitVec.ofNat 16 w.toNat := by
  apply BitVec.eq_of_toNat_eq
  simp [fieldData]

theorem fieldData8_eq : fieldData8 w = BitVec.ofNat 8 w.toNat := by
  apply BitVec.eq_of_toNat_eq
  simp [fieldData8]

end Fields

/-- What the mask 0xF70000000000 keeps of a word: OP and RSV (30_encoding.md R82). -/
theorem masked_toNat (w : CommandWord) : (w &&& 0xF70000000000).toNat =
    w.toNat / 2 ^ 44 * 2 ^ 44 + w.toNat / 2 ^ 40 % 8 * 2 ^ 40 := by
  have byte : ∀ x : BitVec 8, (x &&& 0xF7).toNat = x.toNat / 16 * 16 + x.toNat % 8 := by decide
  have high : (w &&& 0xF70000000000).extractLsb' 40 8 = w.extractLsb' 40 8 &&& 0xF7 := by
    rw [BitVec.extractLsb'_and]
    rfl
  have low : (w &&& 0xF70000000000).extractLsb' 0 40 = 0 := by
    rw [BitVec.extractLsb'_and, show (0xF70000000000 : BitVec 48).extractLsb' 0 40 = 0#40 from rfl, BitVec.and_zero]
    rfl
  have hh := congrArg BitVec.toNat high
  have hl := congrArg BitVec.toNat low
  rw [byte] at hh
  have := w.isLt
  have := (w &&& 0xF70000000000).isLt
  simp only [BitVec.extractLsb'_toNat, Nat.shiftRight_eq_div_pow] at hh hl
  rw [show (0 : BitVec 40).toNat = 0 from rfl] at hl
  omega

section Layout

variable (op : BitVec 4) (wrap : Bool) (bank : Byte) (addr data : Word)

/-- The word's number: each field at its place (30_encoding.md R81). -/
theorem commandWord_toNat : (commandWord op wrap bank addr data).toNat =
    op.toNat * 2 ^ 44 + wrap.toNat * 2 ^ 43 + bank.toNat * 2 ^ 32 + addr.toNat * 2 ^ 16 + data.toNat := by
  have := bank.isLt
  have := addr.isLt
  have := data.isLt
  have hw : wrap.toNat < 2 := wrap.toNat_lt
  have hr : (0#3).toNat = 0 := rfl
  simp only [commandWord, BitVec.toNat_append, BitVec.toNat_ofBool, hr]
  rw [← Nat.shiftLeft_add_eq_or_of_lt (by omega), ← Nat.shiftLeft_add_eq_or_of_lt (by omega),
    ← Nat.shiftLeft_add_eq_or_of_lt (by omega), ← Nat.shiftLeft_add_eq_or_of_lt (by omega),
    ← Nat.shiftLeft_add_eq_or_of_lt (by omega)]
  simp only [Nat.shiftLeft_eq]
  omega

/-- Only OP of a laid-out word stands under the mask. -/
theorem masked_commandWord_toNat :
    (commandWord op wrap bank addr data &&& 0xF70000000000).toNat = op.toNat * 2 ^ 44 := by
  have := bank.isLt
  have := addr.isLt
  have := data.isLt
  have hw : wrap.toNat < 2 := wrap.toNat_lt
  rw [masked_toNat, commandWord_toNat]
  omega

end Layout

end Sys2Proof
end

