-- ==== Sys2Proof/Laws/State.lean ====
section
/-! SUPPORT. One lemma per field per update of State and Record, all true by unfolding. -/

namespace Sys2Proof.Machine

variable (s : State)

@[simp] theorem State.complete_block (S : Record) (data : Word) : (s.complete S data).block = .loaded S := rfl

@[simp] theorem State.complete_pending (S : Record) (data : Word) : (s.complete S data).pending = s.pending := rfl

@[simp] theorem State.complete_image (S : Record) (data : Word) : (s.complete S data).image = s.image := rfl

@[simp] theorem State.complete_response (S : Record) (data : Word) : (s.complete S data).response = some (okResponse data) := rfl

@[simp] theorem State.complete_refusal (S : Record) (data : Word) : (s.complete S data).refusal = s.refusal := rfl

@[simp] theorem State.takeFault_block (S : Record) (c : FaultCode) : (s.takeFault S c).block = .faulted S c := rfl

@[simp] theorem State.takeFault_pending (S : Record) (c : FaultCode) : (s.takeFault S c).pending = s.pending := rfl

@[simp] theorem State.takeFault_image (S : Record) (c : FaultCode) : (s.takeFault S c).image = s.image := rfl

@[simp] theorem State.takeFault_response (S : Record) (c : FaultCode) : (s.takeFault S c).response = some (faultResponse c) := rfl

@[simp] theorem State.takeFault_refusal (S : Record) (c : FaultCode) : (s.takeFault S c).refusal = s.refusal := rfl

@[simp] theorem State.decodeFailed_block (e : DecodeError) : (s.decodeFailed e).block = s.block := rfl

@[simp] theorem State.decodeFailed_pending (e : DecodeError) : (s.decodeFailed e).pending = s.pending := rfl

@[simp] theorem State.decodeFailed_image (e : DecodeError) : (s.decodeFailed e).image = s.image := rfl

@[simp] theorem State.decodeFailed_response (e : DecodeError) : (s.decodeFailed e).response = some (decodeErrorResponse e) := rfl

@[simp] theorem State.decodeFailed_refusal (e : DecodeError) : (s.decodeFailed e).refusal = s.refusal := rfl

@[simp] theorem State.refuse_block (r : RefusalReason) : (s.refuse r).block = s.block := rfl

@[simp] theorem State.refuse_pending (r : RefusalReason) : (s.refuse r).pending = s.pending := rfl

@[simp] theorem State.refuse_image (r : RefusalReason) : (s.refuse r).image = s.image := rfl

@[simp] theorem State.refuse_response (r : RefusalReason) : (s.refuse r).response = none := rfl

@[simp] theorem State.refuse_refusal (r : RefusalReason) : (s.refuse r).refusal = some (s.refusal.getD r) := rfl

@[simp] theorem State.accept_block (rest : List HostMove) (img : Image) : (s.accept rest img).block = s.block := rfl

@[simp] theorem State.accept_pending (rest : List HostMove) (img : Image) : (s.accept rest img).pending = rest := rfl

@[simp] theorem State.accept_image (rest : List HostMove) (img : Image) : (s.accept rest img).image = img := rfl

@[simp] theorem State.accept_response (rest : List HostMove) (img : Image) : (s.accept rest img).response = s.response := rfl

@[simp] theorem State.accept_refusal (rest : List HostMove) (img : Image) : (s.accept rest img).refusal = s.refusal := rfl

variable (R : Record)

@[simp] theorem writePlace_fmt (p : Place) (v : Byte) : (writePlace R p v).fmt = R.fmt := rfl

@[simp] theorem writePlace_regs (p : Place) (v : Byte) : (writePlace R p v).regs = R.regs := rfl

@[simp] theorem writePlace_ext (p : Place) (v : Byte) : (writePlace R p v).ext = R.ext := rfl

@[simp] theorem writePlace_pt (p : Place) (v : Byte) : (writePlace R p v).pt = R.pt := rfl

@[simp] theorem writePlace_bank (p : Place) (v : Byte) :
    (writePlace R p v).bank = Memory.write R.bank (physical p) v := rfl

@[simp] theorem setPaging_fmt (v : Byte) : (setPaging R v).fmt = R.fmt := rfl

@[simp] theorem setPaging_regs (v : Byte) : (setPaging R v).regs = R.regs := rfl

@[simp] theorem setPaging_bank (v : Byte) : (setPaging R v).bank = R.bank := rfl

@[simp] theorem setPaging_ext (v : Byte) :
    (setPaging R v).ext = R.ext.map (fun e => { e with pcr := v }) := rfl

@[simp] theorem setPaging_slot0 (v : Byte) : (setPaging R v).pt.slot0 = R.pt.slot0 := rfl

@[simp] theorem setPaging_slot1 (v : Byte) : (setPaging R v).pt.slot1 = R.pt.slot1 := rfl

@[simp] theorem setPaging_slot2 (v : Byte) : (setPaging R v).pt.slot2 = pagingBank v := rfl

@[simp] theorem finish_ok (S S' : Record) (data : Word) :
    s.finish S (.ok (S', data)) = s.complete S' data := rfl

@[simp] theorem finish_error (S : Record) (c : FaultCode) :
    s.finish S (.error c) = s.takeFault S c := rfl

end Sys2Proof.Machine
end

