-- ==== Sys2Proof/Laws/Memory.lean ====
section
/-! SUPPORT. Bank storage as a list of cells: what a read gives after a write or a fill, and that both keep the
canonical form. -/

namespace Sys2Proof.Machine

@[simp] theorem Memory.read_nil (a : Nat) : Memory.read [] a = 0 := rfl

theorem Memory.read_cons (c : Host.Cell) (m : Memory) (a : Nat) :
    Memory.read (c :: m) a = if c.1 = a then c.2 else Memory.read m a := rfl

theorem canonical_nil : Canonical [] := by simp [Canonical]

/-- The canonical form of a list is that of its tail, and a head below all of the tail and not 0. -/
theorem canonical_cons (c : Host.Cell) (m : Memory) :
    Canonical (c :: m) ↔ (∀ d ∈ m, c.1 < d.1) ∧ c.2 ≠ 0 ∧ Canonical m := by
  simp only [Canonical, List.pairwise_cons, List.forall_mem_cons]
  tauto

/-- A key that no cell names reads as 0. -/
theorem Memory.read_of_absent {m : Memory} {a : Nat} (h : ∀ c ∈ m, c.1 ≠ a) : Memory.read m a = 0 := by
  induction m with
  | nil => rfl
  | cons c m ih =>
    rw [List.forall_mem_cons] at h
    rw [Memory.read_cons, if_neg h.1, ih h.2]

/-- Every cell of a write's result was there before or is the written one, which is not 0. -/
theorem Memory.mem_write {m : Memory} {a : Nat} {v : Byte} {c : Host.Cell} (h : c ∈ Memory.write m a v) :
    c ∈ m ∨ (c = (a, v) ∧ v ≠ 0) := by
  induction m with
  | nil => by_cases hv : v = 0 <;> simp_all [Memory.write]
  | cons d m ih =>
    simp only [Memory.write] at h
    split at h
    · split at h
      · exact .inl h
      · simp only [List.mem_cons] at h ⊢
        tauto
    · split at h
      · split at h
        · exact .inl (List.mem_cons_of_mem _ h)
        · simp only [List.mem_cons] at h ⊢
          tauto
      · simp only [List.mem_cons] at h ⊢
        tauto

/-- A write keeps the canonical form. -/
theorem Memory.write_wf {m : Memory} (hm : Memory.wf m) (a : Nat) (v : Byte) : Memory.wf (Memory.write m a v) := by
  induction m with
  | nil =>
    simp only [Memory.write]
    split
    · exact canonical_nil
    · rename_i hv
      exact (canonical_cons _ _).2 ⟨by simp, hv, canonical_nil⟩
  | cons c m ih =>
    obtain ⟨hlt, hc, htl⟩ := (canonical_cons c m).1 hm
    simp only [Memory.write]
    split
    · rename_i hac
      split
      · exact hm
      · rename_i hv
        refine (canonical_cons _ _).2 ⟨?_, hv, hm⟩
        intro d hd
        rcases List.mem_cons.1 hd with rfl | hd
        · exact hac
        · exact Nat.lt_trans hac (hlt d hd)
    · split
      · rename_i hac
        split
        · exact htl
        · rename_i hv
          exact (canonical_cons _ _).2 ⟨by subst hac; exact hlt, hv, htl⟩
      · rename_i h1 h2
        refine (canonical_cons _ _).2 ⟨?_, hc, ih htl⟩
        intro d hd
        rcases Memory.mem_write hd with hd | ⟨rfl, _⟩
        · exact hlt d hd
        · simp only; omega

/-- A write changes the byte under its own key and no other. -/
theorem Memory.read_write {m : Memory} (hm : Memory.wf m) (a b : Nat) (v : Byte) :
    Memory.read (Memory.write m a v) b = if b = a then v else Memory.read m b := by
  induction m with
  | nil =>
    simp only [Memory.write]
    split
    · rename_i hv
      simp [hv]
    · simp only [Memory.read_cons, eq_comm (a := a)]
  | cons c m ih =>
    obtain ⟨hlt, hc, htl⟩ := (canonical_cons c m).1 hm
    have absent : a ≤ c.1 → ∀ d ∈ m, d.1 ≠ a := by
      intro h d hd
      have := hlt d hd
      omega
    simp only [Memory.write]
    split
    · rename_i hac
      split
      · rename_i hv
        by_cases hb : b = a
        · subst hb
          rw [if_pos rfl, Memory.read_cons, if_neg (by omega), Memory.read_of_absent (absent (by omega)), hv]
        · rw [if_neg hb]
      · simp only [Memory.read_cons (a, v), eq_comm (a := a)]
    · split
      · rename_i hac
        split
        · rename_i hv
          by_cases hb : b = a
          · subst hb
            rw [if_pos rfl, Memory.read_of_absent (absent (by omega)), hv]
          · rw [if_neg hb, Memory.read_cons, if_neg (by omega)]
        · by_cases hb : b = a
          · simp [Memory.read_cons, hb]
          · rw [if_neg hb, Memory.read_cons, if_neg (by simp only; omega), Memory.read_cons, if_neg (by omega)]
      · rename_i h1 h2
        rw [Memory.read_cons, Memory.read_cons, ih htl]
        by_cases hb : b = a
        · subst hb
          rw [if_neg (by omega)]
          simp
        · simp [hb]

/-- Two memories in canonical form that read the same everywhere are the same list. -/
theorem Memory.ext_of_read {m n : Memory} (hm : Memory.wf m) (hn : Memory.wf n)
    (h : ∀ a, Memory.read m a = Memory.read n a) : m = n := by
  have head_unlisted : ∀ {c : Host.Cell} {l : Memory} {a : Nat}, Memory.wf (c :: l) → a < c.1 →
      Memory.read (c :: l) a = 0 := by
    intro c l a hl ha
    obtain ⟨hlt, _, _⟩ := (canonical_cons c l).1 hl
    refine Memory.read_of_absent fun d hd => ?_
    rcases List.mem_cons.1 hd with rfl | hd
    · omega
    · have := hlt d hd
      omega
  induction m generalizing n with
  | nil =>
    cases n with
    | nil => rfl
    | cons d n =>
      have := h d.1
      rw [Memory.read_cons, if_pos rfl] at this
      exact absurd this.symm ((canonical_cons d n).1 hn).2.1
  | cons c m ih =>
    cases n with
    | nil =>
      have := h c.1
      rw [Memory.read_cons, if_pos rfl] at this
      exact absurd this ((canonical_cons c m).1 hm).2.1
    | cons d n =>
      obtain ⟨hcm, hc, hm'⟩ := (canonical_cons c m).1 hm
      obtain ⟨hdn, hd, hn'⟩ := (canonical_cons d n).1 hn
      have hkey : c.1 = d.1 := by
        rcases Nat.lt_trichotomy c.1 d.1 with hlt | heq | hlt
        · have := h c.1
          rw [head_unlisted hn hlt, Memory.read_cons, if_pos rfl] at this
          exact absurd this hc
        · exact heq
        · have := h d.1
          rw [head_unlisted hm hlt, Memory.read_cons, if_pos rfl] at this
          exact absurd this.symm hd
      have hval : c.2 = d.2 := by
        have := h c.1
        rwa [Memory.read_cons, if_pos rfl, Memory.read_cons, if_pos hkey.symm] at this
      have htail : m = n := by
        refine ih hm' hn' fun a => ?_
        by_cases ha : c.1 = a
        · rw [Memory.read_of_absent (fun e he => by have := hcm e he; omega),
            Memory.read_of_absent (fun e he => by have := hdn e he; omega)]
        · have := h a
          rwa [Memory.read_cons, if_neg ha, Memory.read_cons, if_neg (by omega)] at this
      rw [htail, Prod.ext hkey hval]

/-- A read of two lists put together reads the first where it names the key. -/
theorem Memory.read_append (m n : Memory) (a : Nat) :
    Memory.read (m ++ n) a = if ∃ c ∈ m, c.1 = a then Memory.read m a else Memory.read n a := by
  induction m with
  | nil => simp
  | cons c m ih =>
    rw [List.cons_append, Memory.read_cons, Memory.read_cons, ih]
    by_cases hc : c.1 = a
    · simp [hc]
    · simp [hc]

/-- A read under a key that the filter keeps is not changed by the filter. -/
theorem Memory.read_filter {m : Memory} {f : Host.Cell → Bool} {a : Nat} (h : ∀ c ∈ m, c.1 = a → f c = true) :
    Memory.read (m.filter f) a = Memory.read m a := by
  induction m with
  | nil => rfl
  | cons c m ih =>
    rw [List.forall_mem_cons] at h
    by_cases hf : f c = true
    · rw [List.filter_cons_of_pos hf, Memory.read_cons, Memory.read_cons, ih h.2]
    · have hne : c.1 ≠ a := fun hk => hf (h.1 hk)
      rw [List.filter_cons_of_neg hf, Memory.read_cons, if_neg hne, ih h.2]

/-- A bank's cells taken from an image are in canonical form, whatever the image. -/
theorem chunkCells_wf (start base : Nat) (cells : List Host.Cell) : Memory.wf (chunkCells start base cells) := by
  induction cells with
  | nil => exact canonical_nil
  | cons c cells ih =>
    simp only [chunkCells]
    split
    · exact Memory.write_wf ih _ _
    · exact ih

/-- A bank's cells lie in that bank. -/
theorem chunkCells_inside {start base : Nat} {cells : List Host.Cell} {c : Host.Cell}
    (h : c ∈ chunkCells start base cells) : base ≤ c.1 ∧ c.1 < base + 16384 := by
  induction cells with
  | nil => simp [chunkCells] at h
  | cons d cells ih =>
    simp only [chunkCells, Config.bankSize] at h
    split at h
    · rcases Memory.mem_write h with h | ⟨rfl, _⟩
      · exact ih h
      · simp only; omega
    · exact ih h

/-- Byte o of the bank is image byte start + o. -/
theorem read_chunkCells (start base : Nat) (cells : List Host.Cell) {o : Nat} (ho : o < 16384) :
    Memory.read (chunkCells start base cells) (base + o) = Memory.read cells (start + o) := by
  induction cells with
  | nil => rfl
  | cons c cells ih =>
    simp only [chunkCells, Config.bankSize]
    split
    · rename_i h
      rw [Memory.read_write (chunkCells_wf _ _ _), Memory.read_cons, ih]
      by_cases hk : c.1 = start + o
      · rw [if_pos (by omega), if_pos hk]
      · rw [if_neg (by omega), if_neg hk]
    · rename_i h
      rw [ih, Memory.read_cons, if_neg (by omega)]

/-- Filling a bank keeps the canonical form. -/
theorem Memory.fillBank_wf {m : Memory} (hm : Memory.wf m) (b : Nat) (img : Image) (start : Nat) :
    Memory.wf (m.fillBank b img start) := by
  obtain ⟨hp, hz⟩ := hm
  obtain ⟨cp, cz⟩ := chunkCells_wf start (b * Config.bankSize) img.cells
  have hin := @chunkCells_inside start (b * Config.bankSize) img.cells
  constructor
  · simp only [Memory.fillBank, List.pairwise_append, List.mem_append, List.mem_filter, decide_eq_true_eq,
      Config.bankSize] at *
    refine ⟨⟨hp.filter _, cp, ?_⟩, hp.filter _, ?_⟩
    · intro c hc d hd
      have := hin hd
      omega
    · intro c hc d hd
      rcases hc with hc | hc
      · omega
      · have := hin hc
        omega
  · intro c hc
    simp only [Memory.fillBank, List.mem_append, List.mem_filter] at hc
    rcases hc with (hc | hc) | hc
    · exact hz c hc.1
    · exact cz c hc
    · exact hz c hc.1

/-- The cells after a fill: the old ones of other banks, and cells of the bank. -/
theorem Memory.mem_fillBank {m : Memory} {b : Nat} {img : Image} {start : Nat} {c : Host.Cell}
    (h : c ∈ m.fillBank b img start) : c ∈ m ∨ (b * 16384 ≤ c.1 ∧ c.1 < b * 16384 + 16384) := by
  simp only [Memory.fillBank, List.mem_append, List.mem_filter] at h
  rcases h with (h | h) | h
  · exact .inl h.1
  · exact .inr (chunkCells_inside h)
  · exact .inl h.1

/-- After bank[b] <- IMAGE[start ..], byte o of bank b is image byte start + o and every other bank is as before. -/
theorem Memory.read_fillBank (m : Memory) (b : Nat) (img : Image) (start b' : Nat) {o : Nat} (ho : o < 16384) :
    Memory.read (m.fillBank b img start) (b' * 16384 + o) =
      if b' = b then Image.byteAt img (start + o) else Memory.read m (b' * 16384 + o) := by
  have hin := @chunkCells_inside start (b * 16384) img.cells
  have low : (∃ c ∈ m.filter (fun c => decide (c.1 < b * 16384)), c.1 = b' * 16384 + o) → b' < b := by
    rintro ⟨c, hc, he⟩
    simp only [List.mem_filter, decide_eq_true_eq] at hc
    by_contra hn
    have : b * 16384 ≤ b' * 16384 := Nat.mul_le_mul_right _ (by omega)
    omega
  simp only [Memory.fillBank, Config.bankSize, List.append_assoc]
  rw [Memory.read_append, Memory.read_append]
  rcases Nat.lt_trichotomy b' b with hlt | rfl | hlt
  · have hmul : b' * 16384 + 16384 ≤ b * 16384 := by
      have : (b' + 1) * 16384 ≤ b * 16384 := Nat.mul_le_mul_right _ (by omega)
      omega
    rw [if_neg (by omega : ¬ b' = b), Memory.read_filter (by intro c _ hc; simp only [decide_eq_true_eq]; omega)]
    split
    · rfl
    · rename_i hno
      have habs : ∀ c ∈ m, c.1 ≠ b' * 16384 + o := fun c hc he =>
        hno ⟨c, by simp only [List.mem_filter, decide_eq_true_eq]; exact ⟨hc, by omega⟩, he⟩
      rw [if_neg (by rintro ⟨c, hc, he⟩; have := hin hc; omega),
        Memory.read_of_absent (m := m) habs,
        Memory.read_of_absent fun c hc => habs c (List.mem_of_mem_filter hc)]
  · rw [if_neg (fun h => by have := low h; omega), if_pos rfl]
    split
    · exact read_chunkCells _ _ _ ho
    · rename_i hno
      rw [Memory.read_of_absent (m := m.filter _), Image.byteAt, ← read_chunkCells start (b' * 16384) _ ho,
        Memory.read_of_absent fun c hc he => hno ⟨c, hc, he⟩]
      intro c hc he
      simp only [List.mem_filter, decide_eq_true_eq] at hc
      omega
  · have hmul : (b + 1) * 16384 ≤ b' * 16384 := Nat.mul_le_mul_right _ (by omega)
    rw [if_neg (fun h => by have := low h; omega), if_neg (by omega : ¬ b' = b),
      if_neg (by rintro ⟨c, hc, he⟩; have := hin hc; omega),
      Memory.read_filter (by intro c _ hc; simp only [decide_eq_true_eq]; omega)]

/-- The bytes of an image made from a byte sequence. -/
theorem read_ofBytesFrom (bs : List Byte) (o i : Nat) :
    Memory.read (Image.ofBytesFrom o bs) (o + i) = bs.getD i 0 ∧ ∀ c ∈ Image.ofBytesFrom o bs, o ≤ c.1 := by
  induction bs generalizing o i with
  | nil => simp [Image.ofBytesFrom]
  | cons b bs ih =>
    have hkeys : ∀ c ∈ Image.ofBytesFrom (o + 1) bs, o + 1 ≤ c.1 := (ih (o + 1) 0).2
    have hzero : Memory.read (Image.ofBytesFrom (o + 1) bs) o = 0 :=
      Memory.read_of_absent fun c hc => by have := hkeys c hc; omega
    have hsucc : ∀ j, Memory.read (Image.ofBytesFrom (o + 1) bs) (o + (j + 1)) = bs.getD j 0 := fun j => by
      rw [← (ih (o + 1) j).1, show o + 1 + j = o + (j + 1) by omega]
    constructor
    · simp only [Image.ofBytesFrom]
      cases i with
      | zero =>
        split
        · rename_i hb
          rw [hb]
          exact hzero
        · simp [Memory.read_cons]
      | succ j =>
        split
        · rw [hsucc]
          rfl
        · rw [Memory.read_cons, if_neg (by simp only; omega), hsucc]
          rfl
    · intro c hc
      simp only [Image.ofBytesFrom] at hc
      split at hc
      · have := hkeys c hc
        omega
      · rcases List.mem_cons.1 hc with rfl | hc
        · exact Nat.le_refl _
        · have := hkeys c hc
          omega

/-- An image made from a byte sequence has its bytes (30_encoding.md R100). -/
theorem Image.byteAt_ofBytes (bs : List Byte) (i : Nat) : Image.byteAt (Image.ofBytes bs) i = bs.getD i 0 := by
  have := (read_ofBytesFrom bs 0 i).1
  rwa [Nat.zero_add] at this

/-- An image made from a byte sequence has its length (30_encoding.md R100). -/
@[simp] theorem Image.length_ofBytes (bs : List Byte) : (Image.ofBytes bs).length = bs.length := rfl

end Sys2Proof.Machine
end

