-- ==== Sys2Proof/Laws/Load.lean ====
section
/-! SUPPORT. The image decoder: which lengths load, and what each bank of the built record holds. -/

namespace Sys2Proof.Machine

variable (img : Image)

/-- The number of trailing banks: 6 where ctl & 7 is 2 or 5, else 5 (40_load.md R117, 90_conflicts.md C1). -/
theorem restBanks_length (ctl : Byte) :
    (restBanks ctl).length = if ctl.toNat % 8 = 2 ∨ ctl.toNat % 8 = 5 then 6 else 5 := by
  have h : ∀ k : BitVec 3, ([0, 1, 3, 4, 6, 7].filter (fun b => b ≠ k.toNat)).length =
      if k.toNat = 2 ∨ k.toNat = 5 then 6 else 5 := by decide
  have hk : (pagingBank ctl).toNat = ctl.toNat % 8 := by simp [pagingBank]
  rw [restBanks, h, hk]

/-- Filling the remaining banks: a bank in the list takes the block of its place there, any other is as before. -/
theorem read_fillRest (bs : List Nat) (hbs : bs.Nodup) (start : Nat) (m : Memory) (b : Nat) {o : Nat} (ho : o < 16384) :
    Memory.read (fillRest img bs start m) (b * 16384 + o) =
      if b ∈ bs then Image.byteAt img (start + 16384 * bs.idxOf b + o) else Memory.read m (b * 16384 + o) := by
  induction bs generalizing start m with
  | nil => simp [fillRest]
  | cons c bs ih =>
    rw [List.nodup_cons] at hbs
    rw [fillRest, ih hbs.2, Memory.read_fillBank _ _ _ _ _ ho]
    by_cases hc : b = c
    · subst hc
      simp [hbs.1]
    · have hidx : (c :: bs).idxOf b = bs.idxOf b + 1 := List.idxOf_cons_ne _ (Ne.symm hc)
      simp only [List.mem_cons, hc, false_or, if_false, hidx, Config.bankSize]
      rw [show start + 16384 + 16384 * bs.idxOf b + o = start + 16384 * (bs.idxOf b + 1) + o by omega]

theorem fillRest_wf (bs : List Nat) (start : Nat) {m : Memory} (hm : Memory.wf m) :
    Memory.wf (fillRest img bs start m) := by
  induction bs generalizing start m with
  | nil => exact hm
  | cons b bs ih => exact ih _ (Memory.fillBank_wf hm _ _ _)

/-- The cells after filling the remaining banks lie below the end of the last bank filled. -/
theorem mem_fillRest {bs : List Nat} {start n : Nat} {m : Memory} (hbs : ∀ b ∈ bs, b < n)
    (hm : ∀ c ∈ m, c.1 < n * 16384) : ∀ c ∈ fillRest img bs start m, c.1 < n * 16384 := by
  induction bs generalizing start m with
  | nil => exact hm
  | cons b bs ih =>
    rw [List.forall_mem_cons] at hbs
    refine ih hbs.2 fun c hc => ?_
    rcases Memory.mem_fillBank hc with hc | hc
    · exact hm c hc
    · have : (b + 1) * 16384 ≤ n * 16384 := Nat.mul_le_mul_right _ hbs.1
      omega

/-- A bank filled inside N banks keeps the cells inside. -/
theorem mem_fillBank_lt {m : Memory} {b n start : Nat} (hb : b < n) (hm : ∀ c ∈ m, c.1 < n * 16384) :
    ∀ c ∈ m.fillBank b img start, c.1 < n * 16384 := by
  intro c hc
  rcases Memory.mem_fillBank hc with hc | hc
  · exact hm c hc
  · have : (b + 1) * 16384 ≤ n * 16384 := Nat.mul_le_mul_right _ hb
    omega

theorem smallerBanks_wf : Memory.wf (smallerRecord img).bank :=
  Memory.fillBank_wf (Memory.fillBank_wf (Memory.fillBank_wf canonical_nil _ _ _) _ _ _) _ _ _

theorem smallerBanks_inside : ∀ c ∈ (smallerRecord img).bank, c.1 < 3 * 16384 :=
  mem_fillBank_lt img (by omega) (mem_fillBank_lt img (by omega) (mem_fillBank_lt img (by omega) (by simp)))

theorem largerBanks_wf : Memory.wf (largerBanks img) :=
  fillRest_wf img _ _
    (Memory.fillBank_wf (Memory.fillBank_wf (Memory.fillBank_wf canonical_nil _ _ _) _ _ _) _ _ _)

theorem largerBanks_inside : ∀ c ∈ largerBanks img, c.1 < 8 * 16384 := by
  refine mem_fillRest img ?_ (mem_fillBank_lt img (pagingBank (imageCtl img)).isLt
    (mem_fillBank_lt img (by omega) (mem_fillBank_lt img (by omega) (by simp))))
  intro b hb
  have := List.mem_of_mem_filter hb
  simp only [List.mem_cons, List.not_mem_nil, or_false] at this
  omega

/-- What the image decoder answers, by the length of the image (30_encoding.md R96). -/
theorem loadImage_cases :
    (img.length = 49179 ∧ loadImage img = .ok (smallerRecord img)) ∨
    (49183 + 16384 * (restBanks (imageCtl img)).length ≤ img.length ∧ loadImage img = .ok (largerRecord img)) ∨
    (img.length ≠ 49179 ∧ img.length < 49183 + 16384 * (restBanks (imageCtl img)).length ∧
      loadImage img = .error .truncatedInput) := by
  have hlen : largerLength img = 49183 + 16384 * (restBanks (imageCtl img)).length := rfl
  simp only [loadImage, Config.smallerLength, Config.trailingStart, Config.headerSize, Config.ramImageSize,
    Config.extSize, hlen]
  split
  · exact .inr (.inr ⟨by omega, by omega, rfl⟩)
  · split
    · exact .inl ⟨by omega, rfl⟩
    · split
      · exact .inr (.inr ⟨by omega, by omega, rfl⟩)
      · split
        · exact .inr (.inr ⟨by omega, by omega, rfl⟩)
        · exact .inr (.inl ⟨by omega, rfl⟩)

end Sys2Proof.Machine
end

