-- ==== Sys2Proof/Laws/Ops.lean ====
section
/-! SUPPORT. One lemma per shared operation that says what it does: the translator and the primitives over bank bytes,
the frame of the commands, and everything exec can answer. -/

namespace Sys2Proof.Machine

variable {s t : State} {S : Record} {addr : Word}

/-! ## Operands -/

theorem offsetOf_toNat (addr : Word) : (offsetOf addr).toNat = addr.toNat % 0x4000 := by
  simp [offsetOf]

theorem offsetOf_mask (addr : Word) : offsetOf (addr &&& 0x3FFF) = offsetOf addr := by
  apply BitVec.eq_of_toNat_eq
  rw [offsetOf_toNat, offsetOf_toNat, BitVec.toNat_and]
  have : addr.toNat &&& 0x3FFF = addr.toNat % 0x4000 := Nat.and_two_pow_sub_one_eq_mod _ 14
  rw [show (0x3FFF : Word).toNat = 0x3FFF from rfl, this, Nat.mod_mod]

theorem windowOf_toNat (addr : Word) : (windowOf addr).toNat = addr.toNat / 0x4000 % 4 := by
  simp [windowOf, Nat.shiftRight_eq_div_pow]

theorem joinBytes_toNat (lo hi : Byte) : (joinBytes lo hi).toNat = lo.toNat + 256 * hi.toNat := by
  have := lo.isLt
  have := hi.isLt
  have hhi : (zext16 hi <<< 8).toNat = hi.toNat <<< 8 := by
    simp only [zext16, BitVec.toNat_shiftLeft, BitVec.toNat_setWidth, Nat.shiftLeft_eq]
    omega
  have hlo : (zext16 lo).toNat = lo.toNat := by
    simp only [zext16, BitVec.toNat_setWidth]
    omega
  rw [joinBytes, BitVec.toNat_or, hhi, hlo, Nat.or_comm, ← Nat.shiftLeft_add_eq_or_of_lt (by omega), Nat.shiftLeft_eq]
  omega

theorem joinBytes_eq_append (lo hi : Byte) : joinBytes lo hi = (hi ++ lo : BitVec 16) := by
  have := lo.isLt
  apply BitVec.eq_of_toNat_eq
  have happ : (hi ++ lo : BitVec (8 + 8)).toNat = hi.toNat <<< 8 + lo.toNat := by
    rw [BitVec.toNat_append, Nat.shiftLeft_add_eq_or_of_lt (by omega)]
  refine (joinBytes_toNat lo hi).trans (Eq.trans ?_ happ.symm)
  rw [Nat.shiftLeft_eq]
  omega

theorem loByte_eq (v : Word) : loByte v = BitVec.ofNat 8 v.toNat := by
  apply BitVec.eq_of_toNat_eq
  simp [loByte]

theorem hiByte_eq (v : Word) : hiByte v = BitVec.ofNat 8 (v.toNat / 256) := by
  apply BitVec.eq_of_toNat_eq
  simp [hiByte, Nat.shiftRight_eq_div_pow]

theorem joinBytes_lo_hi (v : Word) : joinBytes (loByte v) (hiByte v) = v := by
  have := v.isLt
  apply BitVec.eq_of_toNat_eq
  rw [joinBytes_toNat, loByte_eq, hiByte_eq]
  simp only [BitVec.toNat_ofNat]
  omega

theorem pagingBank_toNat (ctl : Byte) : (pagingBank ctl).toNat = ctl.toNat % 8 := by
  simp [pagingBank]

/-- Second (42_bank_access.md R163) as a physical address. -/
theorem physical_secondPlace (p : Place) (wrap : Bool) :
    (secondPlace p wrap).bank = (if p.off.toNat = 0x3FFF ∧ wrap = false then p.bank + 1 else p.bank) ∧
    physical (secondPlace p wrap) =
      if p.off.toNat ≠ 0x3FFF then p.bank * 0x4000 + p.off.toNat + 1
      else if wrap then p.bank * 0x4000 else (p.bank + 1) * 0x4000 := by
  rw [secondPlace]
  by_cases h : p.off = 0x3FFF
  · have h' : p.off.toNat = 0x3FFF := by
      rw [h]
      rfl
    rw [if_pos h]
    cases wrap <;> simp [h', physical, Config.bankSize]
  · have h' : p.off.toNat ≠ 0x3FFF := fun hc => h (BitVec.eq_of_toNat_eq hc)
    have hlt := p.off.isLt
    have hsucc : (p.off + 1).toNat = p.off.toNat + 1 := by
      rw [BitVec.toNat_add, show (1 : Offset).toNat = 1 from rfl]
      omega
    rw [if_neg h, if_neg (fun hc => h' hc.1), if_pos h', physical, hsucc]
    exact ⟨rfl, by simp only [Config.bankSize]; omega⟩

/-! ## The translator and the byte primitives -/

theorem translate_of_unmapped (pt : PageTable) (h : addr.toNat < 0x4000) : translate pt addr = none := by
  have : addr < Config.ramBase := by rw [BitVec.lt_def]; exact h
  rw [translate, if_pos this]

theorem translate_of_mapped (S : Record) (h : 0x4000 ≤ addr.toNat) :
    translate S.pt addr = some ⟨mapBank S addr, offsetOf addr⟩ := by
  have hn : ¬ addr < Config.ramBase := by
    rw [BitVec.lt_def, show Config.ramBase.toNat = 0x4000 from rfl]
    omega
  have hlt := addr.isLt
  have hw : (windowOf addr - 1).toNat = addr.toNat / 0x4000 - 1 := by
    rw [BitVec.toNat_sub, windowOf_toNat, show (1 : BitVec 2).toNat = 1 from rfl]
    omega
  have h0 : windowOf addr - 1 = 0 ↔ addr.toNat < 0x8000 := by
    rw [← BitVec.toNat_inj, hw, show (0 : BitVec 2).toNat = 0 from rfl]
    omega
  have h1 : windowOf addr - 1 = 1 ↔ 0x8000 ≤ addr.toNat ∧ addr.toNat < 0xC000 := by
    rw [← BitVec.toNat_inj, hw, show (1 : BitVec 2).toNat = 1 from rfl]
    omega
  rw [translate, if_neg hn, pageSlot, mapBank]
  congr 2
  split
  · rw [if_pos (h0.1 ‹_›)]
  · rename_i hn0
    rw [if_neg fun hc => hn0 (h0.2 hc)]
    split
    · rw [if_pos (h1.1 ‹_›).2]
    · rename_i hn1
      rw [if_neg fun hc => hn1 (h1.2 ⟨by by_contra hc'; exact hn0 (h0.2 (by omega)), hc⟩)]

theorem readPlace_eq (S : Record) (p : Place) : readPlace S p = bankByte S p.bank p.off.toNat := rfl

/-- MemRead(addr, 1) by the address map (41_logical_access.md R140, 20_memory.md R56). -/
theorem memRead_eq_mapByte (S : Record) (addr : Word) : memRead S addr = mapByte S addr := by
  rw [memRead, mapByte]
  split
  · rename_i h
    have : addr.toNat < 0x4000 := by
      by_contra hc
      rw [translate_of_mapped S (by omega)] at h
      cases h
    rw [if_pos this]
  · rename_i p h
    have : ¬ addr.toNat < 0x4000 := fun hc => by
      rw [translate_of_unmapped _ hc] at h
      cases h
    rw [translate_of_mapped S (by omega)] at h
    cases h
    rw [if_neg this, readPlace_eq, offsetOf_toNat]

theorem memWrite_of_unmapped (S : Record) (v : Byte) (h : addr.toNat < 0x4000) :
    memWrite S addr v = .error .addressOutOfRange := by
  rw [memWrite, translate_of_unmapped _ h]

theorem memWrite_of_mapped (S : Record) (v : Byte) (h : 0x4000 ≤ addr.toNat) :
    memWrite S addr v = .ok (writePlace S ⟨mapBank S addr, offsetOf addr⟩ v) := by
  rw [memWrite, translate_of_mapped S h]

theorem bankCheck_cases (S : Record) (b : Nat) :
    (b < bankCount S.fmt ∧ bankCheck S b = .ok ()) ∨ (bankCount S.fmt ≤ b ∧ bankCheck S b = .error .bankOutOfRange) := by
  rw [bankCheck]
  split
  · exact .inr ⟨‹_›, rfl⟩
  · exact .inl ⟨by omega, rfl⟩

theorem bankCheck_ok (h : b < bankCount S.fmt) : bankCheck S b = .ok () := by
  rw [bankCheck, if_neg (by omega)]

theorem bankCheck_error (h : bankCount S.fmt ≤ b) : bankCheck S b = .error .bankOutOfRange := by
  rw [bankCheck, if_pos h]

theorem bankRead_ok {p : Place} (h : p.bank < bankCount S.fmt) : bankRead S p = .ok (readPlace S p) := by
  rw [bankRead, bankCheck_ok h]

theorem bankRead_error {p : Place} (h : bankCount S.fmt ≤ p.bank) : bankRead S p = .error .bankOutOfRange := by
  rw [bankRead, bankCheck_error h]

theorem bankWrite_ok {p : Place} (v : Byte) (h : p.bank < bankCount S.fmt) :
    bankWrite S p v = .ok (writePlace S p v) := by
  rw [bankWrite, bankCheck_ok h]

theorem bankWrite_error {p : Place} (v : Byte) (h : bankCount S.fmt ≤ p.bank) :
    bankWrite S p v = .error .bankOutOfRange := by
  rw [bankWrite, bankCheck_error h]

/-! ## What the updates do to the record's invariant -/

theorem writePlace_paged (p : Place) (v : Byte) (h : S.paged) : (writePlace S p v).paged := h

theorem writePlace_stored {p : Place} (v : Byte) (h : S.stored) (hp : p.bank < bankCount S.fmt) :
    (writePlace S p v).stored := by
  refine ⟨Memory.write_wf h.1 _ _, fun c hc => ?_⟩
  rcases Memory.mem_write hc with hc | ⟨rfl, _⟩
  · exact h.2 c hc
  · have := p.off.isLt
    simp only [writePlace_fmt, physical, Config.bankSize]
    have : (p.bank + 1) * 16384 ≤ bankCount S.fmt * 16384 := Nat.mul_le_mul_right _ hp
    omega

theorem setPaging_paged (v : Byte) (h : S.paged) (hf : S.fmt = .larger) : (setPaging S v).paged := by
  rw [Record.paged, hf] at h
  obtain ⟨e, he, h0, h1, _⟩ := h
  rw [Record.paged, setPaging_fmt, hf]
  exact ⟨{ e with pcr := v }, by simp [he], h0, h1, by simp [pagingBank_toNat]⟩

theorem setPaging_stored (v : Byte) (h : S.stored) : (setPaging S v).stored := h

/-- The page table names existing banks (10_state.md R27). -/
theorem mapBank_lt (h : S.paged) (addr : Word) : mapBank S addr < bankCount S.fmt := by
  rw [Record.paged] at h
  rw [mapBank]
  cases hf : S.fmt with
  | smaller =>
    rw [hf] at h
    rw [h.1]
    simp only [bankCount, Config.banksSmaller]
    split
    · decide
    · split <;> decide
  | larger =>
    simp only [bankCount, Config.banksLarger]
    split
    · exact S.pt.slot0.isLt
    · split
      · exact S.pt.slot1.isLt
      · exact S.pt.slot2.isLt

/-! ## The frame of the commands -/

section Frame

variable {f : Record → Except FaultCode (Record × Word)}

theorem runLoaded_of_loaded (h : s.block = .loaded S) : s.runLoaded f = .next (s.finish S (f S)) := by
  rw [State.runLoaded, h]

theorem runLoaded_of_unloaded (h : s.block = .unloaded) : s.runLoaded f = .next (s.refuse .notLoaded) := by
  rw [State.runLoaded, h]

theorem runLoaded_of_faulted (h : s.block = .faulted S c) : s.runLoaded f = .fault (.stuck c) := by
  rw [State.runLoaded, h]

end Frame

/-- What a command that completes in Loaded leaves of the record. -/
inductive RecordStep (S : Record) : Record → Prop where
  /-- A read. -/
  | read : RecordStep S S
  /-- One byte stored in an existing bank, or in the bank the page table names. -/
  | store (p : Place) (v : Byte) (h : p.bank < bankCount S.fmt ∨ ∃ addr, p.bank = mapBank S addr) :
      RecordStep S (writePlace S p v)
  /-- Two bytes so stored. -/
  | store2 (p q : Place) (v u : Byte) (h : p.bank < bankCount S.fmt ∨ ∃ addr, p.bank = mapBank S addr)
      (h' : q.bank < bankCount S.fmt ∨ ∃ addr, q.bank = mapBank S addr) :
      RecordStep S (writePlace (writePlace S p v) q u)
  /-- SETPAGE in Larger. -/
  | page (v : Byte) (h : S.fmt = .larger) : RecordStep S (setPaging S v)

/-- A command that completes keeps the record's invariant. -/
theorem RecordStep.keeps_inv {S S' : Record} (h : RecordStep S S') (hS : S.Inv) : S'.Inv := by
  have bound : ∀ p : Place, (p.bank < bankCount S.fmt ∨ ∃ addr, p.bank = mapBank S addr) →
      p.bank < bankCount S.fmt := by
    rintro p (hp | ⟨addr, hp⟩)
    · exact hp
    · exact hp ▸ mapBank_lt hS.1 addr
  cases h with
  | read => exact hS
  | store p v hp => exact ⟨writePlace_paged _ _ hS.1, writePlace_stored _ hS.2 (bound p hp)⟩
  | store2 p q v u hp hq =>
    exact ⟨writePlace_paged _ _ (writePlace_paged _ _ hS.1),
      writePlace_stored _ (writePlace_stored _ hS.2 (bound p hp)) (bound q hq)⟩
  | page v hf => exact ⟨setPaging_paged v hS.1 hf, setPaging_stored v hS.2⟩

theorem RecordStep.keeps_paged {S S' : Record} (h : RecordStep S S') (hS : S.paged) : S'.paged := by
  cases h with
  | read => exact hS
  | store p v hp => exact hS
  | store2 p q v u hp hq => exact hS
  | page v hf => exact setPaging_paged v hS hf

/-- Everything exec can answer with a next state. -/
theorem exec_next_cases {i : Instr} (h : exec i s = .next t) :
    (s.block = .unloaded ∧ i ≠ .load ∧ t = s.refuse .notLoaded) ∨
    (s.block = .unloaded ∧ i = .load ∧ ∃ e, loadImage s.image = .error e ∧ t = s.decodeFailed e) ∨
    (s.block = .unloaded ∧ i = .load ∧ ∃ S, loadImage s.image = .ok S ∧ t = s.complete S 0) ∨
    (∃ S, s.block = .loaded S ∧ i = .load ∧ t = s.refuse .loadWhenLoaded) ∨
    (∃ S c, s.block = .loaded S ∧ i ≠ .load ∧ t = s.takeFault S c) ∨
    (∃ S S' d, s.block = .loaded S ∧ i ≠ .load ∧ RecordStep S S' ∧ t = s.complete S' d) := by
  have framed : ∀ f : Record → Except FaultCode (Record × Word), i ≠ .load →
      (∀ S S' d, f S = .ok (S', d) → RecordStep S S') → s.runLoaded f = .next t →
      (s.block = .unloaded ∧ i ≠ .load ∧ t = s.refuse .notLoaded) ∨
      (∃ S c, s.block = .loaded S ∧ i ≠ .load ∧ t = s.takeFault S c) ∨
      (∃ S S' d, s.block = .loaded S ∧ i ≠ .load ∧ RecordStep S S' ∧ t = s.complete S' d) := by
    intro f hi hf h
    cases hb : s.block with
    | unloaded =>
      rw [runLoaded_of_unloaded hb] at h
      cases h
      exact .inl ⟨rfl, hi, rfl⟩
    | faulted S c =>
      rw [runLoaded_of_faulted hb] at h
      cases h
    | loaded S =>
      rw [runLoaded_of_loaded hb] at h
      cases h
      cases hr : f S with
      | error c => exact .inr (.inl ⟨S, c, rfl, hi, rfl⟩)
      | ok r => exact .inr (.inr ⟨S, r.1, r.2, rfl, hi, hf S r.1 r.2 hr, rfl⟩)
  cases i with
  | load =>
    simp only [exec, execLoad] at h
    split at h
    · cases h
    · cases h
      exact .inr (.inr (.inr (.inl ⟨_, ‹_›, rfl, rfl⟩)))
    · split at h
      · cases h
        exact .inr (.inl ⟨‹_›, rfl, _, ‹_›, rfl⟩)
      · cases h
        exact .inr (.inr (.inl ⟨‹_›, rfl, _, ‹_›, rfl⟩))
  | lpeek8 addr =>
    rcases framed _ (by simp) (fun S S' d hr => by cases hr; exact .read) h with h | h | h
    · exact .inl h
    · exact .inr (.inr (.inr (.inr (.inl h))))
    · exact .inr (.inr (.inr (.inr (.inr h))))
  | lpoke8 addr v =>
    rcases framed _ (by simp) (fun S S' d hr => by
        rcases Nat.lt_or_ge addr.toNat 0x4000 with ha | ha
        · rw [memWrite_of_unmapped _ _ ha] at hr
          cases hr
        · rw [memWrite_of_mapped _ _ ha] at hr
          cases hr
          exact .store _ _ (.inr ⟨_, rfl⟩)) h with h | h | h
    · exact .inl h
    · exact .inr (.inr (.inr (.inr (.inl h))))
    · exact .inr (.inr (.inr (.inr (.inr h))))
  | lpeek16 addr =>
    rcases framed _ (by simp) (fun S S' d hr => by split at hr <;> cases hr; exact .read) h with h | h | h
    · exact .inl h
    · exact .inr (.inr (.inr (.inr (.inl h))))
    · exact .inr (.inr (.inr (.inr (.inr h))))
  | lpoke16 addr v =>
    rcases framed _ (by simp) (fun S S' d hr => by
        split at hr
        · cases hr
        · split at hr
          · cases hr
          · rename_i hr0 hlo
            simp only [BitVec.lt_def, show Config.ramBase.toNat = 0x4000 from rfl, not_or, Nat.not_lt] at hlo
            rw [memWrite_of_mapped _ _ (by omega)] at hr
            simp only at hr
            rw [memWrite_of_mapped _ _ (by omega)] at hr
            cases hr
            exact .store2 _ _ _ _ (.inr ⟨_, rfl⟩) (.inr ⟨addr + 1, rfl⟩)) h with h | h | h
    · exact .inl h
    · exact .inr (.inr (.inr (.inr (.inl h))))
    · exact .inr (.inr (.inr (.inr (.inr h))))
  | bpeek8 bank addr =>
    rcases framed _ (by simp) (fun S S' d hr => by
        split at hr <;> cases hr
        exact .read) h with h | h | h
    · exact .inl h
    · exact .inr (.inr (.inr (.inr (.inl h))))
    · exact .inr (.inr (.inr (.inr (.inr h))))
  | bpoke8 bank addr v =>
    rcases framed _ (by simp) (fun S S' d hr => by
        rw [bankWrite] at hr
        rcases bankCheck_cases S (bankOperand bank addr).bank with ⟨hb, hc⟩ | ⟨_, hc⟩
        · rw [hc] at hr
          cases hr
          exact .store _ _ (.inl hb)
        · rw [hc] at hr
          cases hr) h with h | h | h
    · exact .inl h
    · exact .inr (.inr (.inr (.inr (.inl h))))
    · exact .inr (.inr (.inr (.inr (.inr h))))
  | bpeek16 bank addr wrap =>
    rcases framed _ (by simp) (fun S S' d hr => by
        simp only at hr
        split at hr
        · cases hr
        · split at hr <;> cases hr
          exact .read) h with h | h | h
    · exact .inl h
    · exact .inr (.inr (.inr (.inr (.inl h))))
    · exact .inr (.inr (.inr (.inr (.inr h))))
  | bpoke16 bank addr v wrap =>
    rcases framed _ (by simp) (fun S S' d hr => by
        simp only at hr
        rcases bankCheck_cases S (bankOperand bank addr).bank with ⟨hb, hc⟩ | ⟨_, hc⟩
        · rw [hc] at hr
          simp only at hr
          rcases bankCheck_cases S (secondPlace (bankOperand bank addr) wrap).bank with ⟨hb', hc'⟩ | ⟨_, hc'⟩
          · rw [hc'] at hr
            cases hr
            exact .store2 _ _ _ _ (.inl hb) (.inl hb')
          · rw [hc'] at hr
            cases hr
        · rw [hc] at hr
          cases hr) h with h | h | h
    · exact .inl h
    · exact .inr (.inr (.inr (.inr (.inl h))))
    · exact .inr (.inr (.inr (.inr (.inr h))))
  | setpage v =>
    rcases framed _ (by simp) (fun S S' d hr => by
        split at hr <;> cases hr
        exact .page v ‹_›) h with h | h | h
    · exact .inl h
    · exact .inr (.inr (.inr (.inr (.inl h))))
    · exact .inr (.inr (.inr (.inr (.inr h))))

end Sys2Proof.Machine
end

