-- ==== Sys2Proof/Laws/PerInstr.lean ====
section
/-! SUPPORT. Per instruction: the encoder's word has the match and mask of the instruction's row in
spec/opcode_table.json (30_encoding.md R82). -/

namespace Sys2Proof.Laws.EncodesAsTabulated

/-- match, the row's OP << 44 (30_encoding.md R82). -/
def tableMatch (i : Instr) : CommandWord :=
  match i with
  | .lpeek8 _ => 0x100000000000
  | .lpoke8 _ _ => 0x200000000000
  | .lpeek16 _ => 0x300000000000
  | .lpoke16 _ _ => 0x400000000000
  | .bpeek8 _ _ => 0x500000000000
  | .bpoke8 _ _ _ => 0x600000000000
  | .bpeek16 _ _ _ => 0x700000000000
  | .bpoke16 _ _ _ _ => 0x800000000000
  | .setpage _ => 0x900000000000
  | .load => 0xF00000000000

/-- The instruction's word under the mask 0xF70000000000 is its row's match. -/
def Statement (i : Instr) : Prop := encode i &&& 0xF70000000000 = tableMatch i

theorem lpeek8 (addr : Word) : Statement (.lpeek8 addr) :=
  BitVec.eq_of_toNat_eq (masked_commandWord_toNat _ _ _ _ _)

theorem lpoke8 (addr : Word) (value : Byte) : Statement (.lpoke8 addr value) :=
  BitVec.eq_of_toNat_eq (masked_commandWord_toNat _ _ _ _ _)

theorem lpeek16 (addr : Word) : Statement (.lpeek16 addr) :=
  BitVec.eq_of_toNat_eq (masked_commandWord_toNat _ _ _ _ _)

theorem lpoke16 (addr value : Word) : Statement (.lpoke16 addr value) :=
  BitVec.eq_of_toNat_eq (masked_commandWord_toNat _ _ _ _ _)

theorem bpeek8 (bank : Byte) (addr : Word) : Statement (.bpeek8 bank addr) :=
  BitVec.eq_of_toNat_eq (masked_commandWord_toNat _ _ _ _ _)

theorem bpoke8 (bank : Byte) (addr : Word) (value : Byte) : Statement (.bpoke8 bank addr value) :=
  BitVec.eq_of_toNat_eq (masked_commandWord_toNat _ _ _ _ _)

theorem bpeek16 (bank : Byte) (addr : Word) (wrap : Bool) : Statement (.bpeek16 bank addr wrap) :=
  BitVec.eq_of_toNat_eq (masked_commandWord_toNat _ _ _ _ _)

theorem bpoke16 (bank : Byte) (addr value : Word) (wrap : Bool) : Statement (.bpoke16 bank addr value wrap) :=
  BitVec.eq_of_toNat_eq (masked_commandWord_toNat _ _ _ _ _)

theorem setpage (value : Byte) : Statement (.setpage value) :=
  BitVec.eq_of_toNat_eq (masked_commandWord_toNat _ _ _ _ _)

theorem load : Statement .load :=
  BitVec.eq_of_toNat_eq (masked_commandWord_toNat _ _ _ _ _)

end Sys2Proof.Laws.EncodesAsTabulated
end

