-- ==== Sys2Proof/Laws/Step.lean ====
section
/-! SUPPORT. Everything a step can do, and how a run is put together from steps. -/

namespace Sys2Proof.Machine

theorem stuckCause_eq_none {b : Block} (h : ∀ S c, b ≠ .faulted S c) : stuckCause b = none := by
  cases b with
  | faulted S c => exact absurd rfl (h S c)
  | unloaded => rfl
  | loaded S => rfl

theorem ne_faulted_of_stuckCause {b : Block} (h : stuckCause b = none) : ∀ S c, b ≠ .faulted S c := by
  intro S c hb
  subst hb
  cases h

/-- A step that answers a next state: no host move, a reserved word, a command, or an edit of regs. -/
theorem step_next_cases {s t : State} (h : step s = .next t) :
    (∀ S c, s.block ≠ .faulted S c) ∧
    ((s.pending = [] ∧ t = s) ∨
     (∃ w img rest e, s.pending = .command w img :: rest ∧ decode w = .error e ∧
        t = (s.accept rest img).refuse (.reservedEncoding e)) ∨
     (∃ w img rest i, s.pending = .command w img :: rest ∧ decode w = .ok i ∧
        exec i (s.accept rest img) = .next t) ∨
     (∃ edits rest S, s.pending = .editRegs edits :: rest ∧ s.block = .loaded S ∧
        t = { s with pending := rest, block := .loaded { S with regs := edits.foldl Regs.edit S.regs } })) := by
  rw [step, stepBlock] at h
  split at h
  · cases h
  · refine ⟨ne_faulted_of_stuckCause ‹_›, ?_⟩
    split at h
    · cases h
      exact .inl ⟨‹_›, rfl⟩
    · rename_i m rest hp
      cases m with
      | command w img =>
        simp only [makeMove, issueWord] at h
        split at h
        · cases h
          exact .inr (.inl ⟨_, _, _, _, hp, ‹_›, rfl⟩)
        · exact .inr (.inr (.inl ⟨_, _, _, _, hp, ‹_›, h⟩))
      | editRegs edits =>
        simp only [makeMove, State.editRegs] at h
        split at h
        · cases h
        · cases h
        · cases h
          exact .inr (.inr (.inr ⟨_, _, _, hp, ‹_›, rfl⟩))

/-- A run whose first step is known. -/
theorem run_of_step {s u : State} (k : Nat) (h : step s = .next u) :
    Host.Core.run Sys2Proof.core (k + 1) s = Host.Core.run Sys2Proof.core k u := by
  have h' : Sys2Proof.core.step s = .next u := h
  simp only [Host.Core.run, h']

/-- A run of k + 1 steps that answers a next state begins with a step that does. -/
theorem run_succ_next {k : Nat} {s t : State} (h : Host.Core.run Sys2Proof.core (k + 1) s = .next t) :
    ∃ u, step s = .next u ∧ Host.Core.run Sys2Proof.core k u = .next t := by
  simp only [Host.Core.run] at h
  split at h
  · exact ⟨_, ‹_›, h⟩
  · cases h
  · cases h

end Sys2Proof.Machine
end

