-- ==== Sys2Proof/Tests/Slice0.lean ====
section
/-! SUPPORT. Tests: words and vectors of spec/95_test_vectors.md, the well-formedness smoke test, and for each statement
with hypotheses a state and operands that meet them. -/

namespace Sys2Proof.Tests

open Sys2Proof.Machine

/-! ## Small states -/

/-- A record of regs whose fields are all 0. -/
def zeroRegs : Regs := ⟨0, 0, 0, 0, 0, 0, 0, 0, 0, 0, 0, 0, 0, 0, 0, 0⟩

/-- The bytes 0x10·b + (o mod 16) of the start states T and U (spec/95_test_vectors.md, Start states), at the offsets
that the tests read. -/
def patternCells (banks : List Nat) : Memory :=
  (banks.flatMap fun b =>
    [0, 1, 5, 0x10, 0x11, 0x123, 0x3FFE, 0x3FFF].map fun o =>
      (b * 0x4000 + o, BitVec.ofNat 8 (0x10 * b + o % 16))).filter fun c => c.2 ≠ 0

/-- The record of T: Larger, ctl = 0x03. -/
def recT : Record :=
  ⟨.larger, zeroRegs, some ⟨0x03, 0x1234, 0xAA⟩, patternCells [0, 1, 2, 3, 4, 5, 6, 7], ⟨5, 2, 3⟩⟩

/-- The record of U: Smaller. -/
def recU : Record := ⟨.smaller, zeroRegs, none, patternCells [0, 1, 2], ⟨0, 1, 2⟩⟩

/-- T with pcr & 7 = 5, so windows 1 and 3 alias. -/
def recT5 : Record := { recT with ext := some ⟨0x0D, 0, 0⟩, pt := ⟨5, 2, 5⟩ }

/-- T with pcr & 7 = 2, so windows 2 and 3 alias. -/
def recT2 : Record := { recT with ext := some ⟨0x02, 0, 0⟩, pt := ⟨5, 2, 2⟩ }

/-- A block loaded with S. -/
def loadedWith (S : Record) : State := { State.reset with block := .loaded S }

/-- A new block with an image on the side channel. -/
def withImage (img : Image) : State := { State.reset with image := img }

/-- A new block with a word as the host's next move. -/
def withWord (s : State) (w : CommandWord) (img : Image) : State := { s with pending := [.command w img] }

/-- The next state of an outcome. -/
def nextOf (o : Host.Outcome State Fault Refusal) : Option State :=
  match o with
  | .next t => some t
  | .fault _ => none
  | .refused _ => none

/-- The response in the next state of an outcome. -/
def answer (o : Host.Outcome State Fault Refusal) : Option Response := (nextOf o).bind fun t => t.response

/-- Byte o of bank b in the next state of an outcome. -/
def byteAfter (o : Host.Outcome State Fault Refusal) (b off : Nat) : Option Byte :=
  (nextOf o).bind fun t => t.block.record?.map fun S => bankByte S b off

/-- The block of the next state of an outcome. -/
def blockAfter (o : Host.Outcome State Fault Refusal) : Option Block := (nextOf o).map fun t => t.block

/-- The Larger image of spec/95_test_vectors.md (LOAD vectors), the first byte of each 16 KiB block only: chunks 0x55,
0x22, 0x99, the extension 0x34 0x12 ctl 0xAA, trailing banks 0x10, 0x11, ... -/
def vectorImage (length ctl : Nat) : Image :=
  ⟨length,
    ([(27, 0x55), (16411, 0x22), (32795, 0x99), (49179, 0x34), (49180, 0x12), (49181, BitVec.ofNat 8 ctl), (49182, 0xAA),
      (49183, 0x10), (65567, 0x11), (81951, 0x12), (98335, 0x13), (114719, 0x14), (131103, 0x15)] :
      List Host.Cell).filter fun c => c.1 < length ∧ c.2 ≠ 0⟩

/-- The first byte of each of the 8 banks. -/
def firstBytes (o : Host.Outcome State Fault Refusal) : List (Option Byte) :=
  [byteAfter o 0 0, byteAfter o 1 0, byteAfter o 2 0, byteAfter o 3 0,
   byteAfter o 4 0, byteAfter o 5 0, byteAfter o 6 0, byteAfter o 7 0]

/-! ## Decoding: one word per constructor, written from the fields of 30_encoding.md R81 -/

-- V-E6: the ignored fields W, BANK and DATA are set.
theorem test_decode_lpeek8 : decode 0x18FFC000FFFF = .ok (.lpeek8 0xC000) := rfl

-- V-W4: DATA[15:8] is ignored.
theorem test_decode_lpoke8 : decode 0x200080011234 = .ok (.lpoke8 0x8001 0x34) := rfl

-- V-R14.
theorem test_decode_lpeek16 : decode 0x300040000000 = .ok (.lpeek16 0x4000) := rfl

-- V-W8.
theorem test_decode_lpoke16 : decode 0x40007FFFBEEF = .ok (.lpoke16 0x7FFF 0xBEEF) := rfl

-- V-B3.
theorem test_decode_bpeek8 : decode 0x5001C0050000 = .ok (.bpeek8 1 0xC005) := rfl

-- V-B8.
theorem test_decode_bpoke8 : decode 0x60001234005A = .ok (.bpoke8 0 0x1234 0x5A) := rfl

-- V-B12.
theorem test_decode_bpeek16 : decode 0x78033FFF0000 = .ok (.bpeek16 3 0x3FFF true) := rfl

-- V-B23.
theorem test_decode_bpoke16 : decode 0x80073FFF1234 = .ok (.bpoke16 7 0x3FFF 0x1234 false) := rfl

-- V-P2.
theorem test_decode_setpage : decode 0x9000000000FF = .ok (.setpage 0xFF) := rfl

-- The LOAD word, with every ignored field set (R85).
theorem test_decode_load : decode 0xF8FFFFFFFFFF = .ok .load := rfl

-- V-E2, V-E3, V-E4, V-E5.
theorem test_decode_reserved :
    decode 0x000000000000 = .error ⟨0, 0⟩ ∧ decode 0xA00000000000 = .error ⟨0xA, 0⟩ ∧
      decode 0xE00000000000 = .error ⟨0xE, 0⟩ ∧ decode 0x110000000000 = .error ⟨1, 1⟩ := ⟨rfl, rfl, rfl, rfl⟩

-- V-B21's word from its operands.
theorem test_encode_bpoke16 : encode (.bpoke16 7 0x3FFF 0xCAFE true) = 0x88073FFFCAFE := by decide

/-! ## Well-formedness smoke test: one ill-formed image per check -/

theorem test_wellFormed_image : (vectorImage 131103 3).wellFormed := by decide

theorem test_illFormed_order : ¬ Image.wellFormed ⟨10, [(3, 1), (2, 1)]⟩ := by decide

theorem test_illFormed_zero : ¬ Image.wellFormed ⟨10, [(3, 0)]⟩ := by decide

theorem test_illFormed_length : ¬ Image.wellFormed ⟨10, [(10, 1)]⟩ := by decide

/-! ## LOAD -/

-- V-L8.
theorem test_load_ctl0 :
    firstBytes (exec .load (withImage (vectorImage 131103 0))) =
      [some 0x99, some 0x10, some 0x22, some 0x11, some 0x12, some 0x55, some 0x13, some 0x14] := by decide

-- V-L11: chunk 3 overwrites chunk 1 in bank 5.
theorem test_load_ctl5 :
    firstBytes (exec .load (withImage (vectorImage 147487 5))) =
      [some 0x10, some 0x11, some 0x22, some 0x12, some 0x13, some 0x99, some 0x14, some 0x15] := by decide

-- V-L13: the extension fields and the page table.
theorem test_load_extension :
    (blockAfter (exec .load (withImage (vectorImage 131105 0xFB)))).bind (fun b => b.record?.map fun S => (S.ext, S.pt)) =
      some (some ⟨0xFB, 0x1234, 0xAA⟩, ⟨5, 2, 3⟩) := by decide

-- V-L5 and V-L10.
theorem test_load_truncated :
    exec .load (withImage ⟨49180, []⟩) =
      .next { withImage ⟨49180, []⟩ with response := some ⟨.decodeError, 1, 0⟩ } ∧
    answer (exec .load (withImage (vectorImage 131103 5))) = some ⟨.decodeError, 1, 0⟩ := by
  constructor
  · rfl
  · decide

-- The header bytes 0, 1, 2, ..., 26 by the offsets of 30_encoding.md R93 (rewritten as a byte sequence).
theorem test_load_header :
    headerRegs (Image.ofBytes [0, 1, 2, 3, 4, 5, 6, 7, 8, 9, 10, 11, 12, 13, 14, 15, 16, 17, 18, 19, 20, 21, 22, 23, 24, 25, 26]) =
      ⟨0x00, 0x0201, 0x0403, 0x0605, 0x0807, 0x0A09, 0x0C0B, 0x0E0D, 0x100F, 0x1211, 0x13, 0x14, 0x1615, 0x1817, 0x19,
        0x1A⟩ := by decide

-- V-L15.
theorem test_load_when_loaded :
    exec .load (loadedWith recU) = .next { loadedWith recU with refusal := some .loadWhenLoaded } := rfl

/-! ## Logical access -/

-- V-R9 and V-R2.
theorem test_lpeek8 :
    answer (exec (.lpeek8 0xC123) (loadedWith recT)) = some ⟨.ok, 0, 0x0033⟩ ∧
    answer (exec (.lpeek8 0x3FFF) (loadedWith recT)) = some ⟨.ok, 0, 0x00FF⟩ := by decide

-- V-R10.
theorem test_lpeek8_smaller : answer (exec (.lpeek8 0xC000) (loadedWith recU)) = some ⟨.ok, 0, 0x0020⟩ := by decide

-- V-W3.
theorem test_lpoke8 : byteAfter (exec (.lpoke8 0xFFFF 0x01) (loadedWith recT)) 3 0x3FFF = some 0x01 := by decide

-- V-W1.
theorem test_lpoke8_faults :
    blockAfter (exec (.lpoke8 0x3FFF 0xAA) (loadedWith recT)) = some (.faulted recT .addressOutOfRange) := by decide

-- V-R13 and V-R16: the two bytes in different windows.
theorem test_lpeek16_crosses :
    answer (exec (.lpeek16 0x3FFF) (loadedWith recT)) = some ⟨.ok, 0, 0x50FF⟩ ∧
    answer (exec (.lpeek16 0xBFFF) (loadedWith recT)) = some ⟨.ok, 0, 0x302F⟩ := by decide

-- V-R18.
theorem test_lpeek16_faults : answer (exec (.lpeek16 0xFFFF) (loadedWith recT)) = some ⟨.fault, 1, 0⟩ := by decide

-- V-W8.
theorem test_lpoke16_crosses :
    byteAfter (exec (.lpoke16 0x7FFF 0xBEEF) (loadedWith recT)) 5 0x3FFF = some 0xEF ∧
    byteAfter (exec (.lpoke16 0x7FFF 0xBEEF) (loadedWith recT)) 2 0 = some 0xBE := by decide

-- V-W6.
theorem test_lpoke16_faults :
    blockAfter (exec (.lpoke16 0x3FFF 0x1234) (loadedWith recT)) = some (.faulted recT .addressOutOfRange) := by decide

/-! ## Bank-relative access -/

-- V-B3 and V-B6.
theorem test_bpeek8 :
    answer (exec (.bpeek8 1 0xC005) (loadedWith recT)) = some ⟨.ok, 0, 0x0015⟩ ∧
    answer (exec (.bpeek8 3 0x0000) (loadedWith recU)) = some ⟨.fault, 2, 0⟩ := by decide

-- V-B8.
theorem test_bpoke8 : byteAfter (exec (.bpoke8 0 0x1234 0x5A) (loadedWith recT)) 0 0x1234 = some 0x5A := by decide

-- V-B12, V-B16.
theorem test_bpeek16_wraps :
    answer (exec (.bpeek16 3 0x3FFF true) (loadedWith recT)) = some ⟨.ok, 0, 0x303F⟩ ∧
    answer (exec (.bpeek16 3 0x7FFF false) (loadedWith recT)) = some ⟨.ok, 0, 0x403F⟩ := by decide

-- V-B14, V-B18.
theorem test_bpeek16_faults :
    answer (exec (.bpeek16 7 0x3FFF false) (loadedWith recT)) = some ⟨.fault, 2, 0⟩ ∧
    answer (exec (.bpeek16 2 0x3FFF false) (loadedWith recU)) = some ⟨.fault, 2, 0⟩ := by decide

-- V-B22.
theorem test_bpoke16_carries :
    byteAfter (exec (.bpoke16 6 0x3FFF 0x1234 false) (loadedWith recT)) 6 0x3FFF = some 0x34 ∧
    byteAfter (exec (.bpoke16 6 0x3FFF 0x1234 false) (loadedWith recT)) 7 0 = some 0x12 := by decide

-- V-B23.
theorem test_bpoke16_faults :
    blockAfter (exec (.bpoke16 7 0x3FFF 0x1234 false) (loadedWith recT)) = some (.faulted recT .bankOutOfRange) := by
  decide

/-! ## Paging control -/

-- V-P3.
theorem test_setpage :
    blockAfter (exec (.setpage 0x0D) (loadedWith recT)) =
      some (.loaded { recT with ext := some ⟨0x0D, 0x1234, 0xAA⟩, pt := ⟨5, 2, 5⟩ }) := by decide

-- V-P4.
theorem test_setpage_smaller : answer (exec (.setpage 0x01) (loadedWith recU)) = some ⟨.fault, 3, 0⟩ := by decide

/-! ## The step -/

-- V-E1: before LOAD; the block stays Unloaded and the mark stands.
theorem test_step_unloaded :
    step (withWord State.reset 0x1000C0000000 ⟨0, []⟩) =
      .next { State.reset with refusal := some .notLoaded } := rfl

-- V-E3: a reserved word.
theorem test_step_reserved :
    step (withWord (loadedWith recU) 0xA00000000000 ⟨0, []⟩) =
      .next { loadedWith recU with refusal := some (.reservedEncoding ⟨0xA, 0⟩) } := rfl

-- V-L17: nothing executes in Faulted.
theorem test_step_faulted :
    step (withWord { State.reset with block := .faulted recU .pagingUnsupported } 0xF00000000000 ⟨49179, []⟩) =
      .fault (.stuck .pagingUnsupported) := rfl

-- 60_exceptions.md R218: the host edits SP.
theorem test_step_editRegs :
    step { loadedWith recU with pending := [.editRegs [.sp 0x1234]] } =
      .next (loadedWith { recU with regs := { zeroRegs with sp := 0x1234 } }) := rfl

-- The first instruction after reset: LOAD of the shortest image (V-L4), and BPEEK8 3 in the block that log 10 places.
theorem test_withFetchWord :
    answer (step (State.reset.withFetchWord 48 0xF00000000000)) = some ⟨.ok, 0, 0⟩ ∧
    answer (step (State.reset.withFetchWord 48 0x500300000000)) = some ⟨.ok, 0, 0⟩ := by decide

/-! ## Witnesses: for each statement with hypotheses, what meets them -/

/-- The records of the tests meet the record's invariant. -/
theorem recT_inv : recT.Inv := ⟨⟨⟨0x03, 0x1234, 0xAA⟩, rfl, rfl, rfl, rfl⟩, by decide, by decide⟩

theorem recT5_inv : recT5.Inv := ⟨⟨⟨0x0D, 0, 0⟩, rfl, rfl, rfl, rfl⟩, by decide, by decide⟩

theorem recT2_inv : recT2.Inv := ⟨⟨⟨0x02, 0, 0⟩, rfl, rfl, rfl, rfl⟩, by decide, by decide⟩

theorem recU_inv : recU.Inv := ⟨⟨rfl, rfl⟩, by decide, by decide⟩

/-- A loaded block of the tests meets the machine's invariant. -/
theorem loadedWith_inv {S : Record} (h : S.Inv) : (loadedWith S).Inv :=
  ⟨fun _ hS => by cases hS; exact h, fun _ _ hb => by cases hb⟩

theorem loadedWith_ne_faulted (S : Record) : ∀ R c, (loadedWith S).block ≠ .faulted R c := by
  intro _ _ h
  cases h

theorem witness_StepKeepsInvariant :
    ∃ t, (withWord (loadedWith recT) 0x20003FFF00AA ⟨0, []⟩).Inv ∧
      step (withWord (loadedWith recT) 0x20003FFF00AA ⟨0, []⟩) = .next t ∧ t.block = .faulted recT .addressOutOfRange :=
  ⟨_, loadedWith_inv recT_inv, rfl, rfl⟩

theorem witness_PageTableFollowsConfiguration :
    ∃ t S, recT.paged ∧ step (withWord (loadedWith recT) 0x90000000000D ⟨0, []⟩) = .next t ∧
      t.block.record? = some S ∧ S.pt = ⟨5, 2, 5⟩ :=
  ⟨_, _, recT_inv.1, rfl, rfl, rfl⟩

theorem witness_MatchedWordsDecodeWithTheirFields :
    (0x18FFC000FFFF : CommandWord) &&& 0xF70000000000 = 0x100000000000 ∧
    (0x200080011234 : CommandWord) &&& 0xF70000000000 = 0x200000000000 ∧
    (0x3000FFFF0000 : CommandWord) &&& 0xF70000000000 = 0x300000000000 ∧
    (0x4000FFFEBEEF : CommandWord) &&& 0xF70000000000 = 0x400000000000 ∧
    (0x50FF00000000 : CommandWord) &&& 0xF70000000000 = 0x500000000000 ∧
    (0x60001234005A : CommandWord) &&& 0xF70000000000 = 0x600000000000 ∧
    (0x78073FFF0000 : CommandWord) &&& 0xF70000000000 = 0x700000000000 ∧
    (0x88073FFFCAFE : CommandWord) &&& 0xF70000000000 = 0x800000000000 ∧
    (0x9000000000FF : CommandWord) &&& 0xF70000000000 = 0x900000000000 ∧
    (0xF8FFFFFFFFFF : CommandWord) &&& 0xF70000000000 = 0xF00000000000 := by decide

theorem witness_UnusedFieldsAreIgnored :
    (0x18FFC000FFFF : CommandWord) &&& 0xF70000000000 = 0x1000C0000000 &&& 0xF70000000000 ∧
    (0x18FFC000FFFF : CommandWord) &&& 0x0000FFFF0000 = 0x1000C0000000 &&& 0x0000FFFF0000 ∧
    (0x28FF80011234 : CommandWord) &&& 0x0000FFFF00FF = 0x200080010034 &&& 0x0000FFFF00FF ∧
    (0x38FFC000FFFF : CommandWord) &&& 0x0000FFFF0000 = 0x3000C0000000 &&& 0x0000FFFF0000 ∧
    (0x48FF80011234 : CommandWord) &&& 0x0000FFFFFFFF = 0x400080011234 &&& 0x0000FFFFFFFF ∧
    (0x5801C005FFFF : CommandWord) &&& 0x00FFFFFF0000 = 0x5001C0050000 &&& 0x00FFFFFF0000 ∧
    (0x68001234FF5A : CommandWord) &&& 0x00FFFFFF00FF = 0x60001234005A &&& 0x00FFFFFF00FF ∧
    (0x78033FFFFFFF : CommandWord) &&& 0x08FFFFFF0000 = 0x78033FFF0000 &&& 0x08FFFFFF0000 ∧
    (0x88073FFFCAFE : CommandWord) &&& 0x08FFFFFFFFFF = 0x88073FFFCAFE &&& 0x08FFFFFFFFFF ∧
    (0x98FFFFFFFFFF : CommandWord) &&& 0x0000000000FF = 0x9000000000FF &&& 0x0000000000FF := by decide

theorem witness_ReservedWordsAreRefused :
    (0x000000000000 : CommandWord).toNat / 2 ^ 44 = 0 ∧ (0xA00000000000 : CommandWord).toNat / 2 ^ 44 = 10 ∧
    (0xE00000000000 : CommandWord).toNat / 2 ^ 44 = 14 ∧ (0x110000000000 : CommandWord).toNat / 2 ^ 40 % 8 = 1 ∧
    (∀ R c, (withWord (loadedWith recT) 0xA00000000000 ⟨0, []⟩).block ≠ .faulted R c) :=
  ⟨rfl, rfl, rfl, rfl, loadedWith_ne_faulted recT⟩

theorem witness_StepRunsTheDecodedCommand :
    (∀ R c, (withWord (loadedWith recT) 0x1000C0000000 ⟨0, []⟩).block ≠ .faulted R c) ∧
    (withWord (loadedWith recT) 0x1000C0000000 ⟨0, []⟩).pending = [.command 0x1000C0000000 ⟨0, []⟩] ∧
    decode 0x1000C0000000 = .ok (.lpeek8 0xC000) :=
  ⟨loadedWith_ne_faulted recT, rfl, rfl⟩

theorem witness_StepWithoutAMoveIdles :
    (∀ R c, State.reset.block ≠ .faulted R c) ∧ State.reset.pending = [] :=
  ⟨fun _ _ h => Block.noConfusion h, rfl⟩

theorem witness_FaultedBlockIsStuck :
    ({ State.reset with block := .faulted recT .bankOutOfRange } : State).block = .faulted recT .bankOutOfRange := rfl

theorem witness_HostEditChangesOneRegister :
    (loadedWith recU).block = .loaded recU ∧
    ({ loadedWith recU with pending := [.editRegs [.border 7]] } : State).pending = [.editRegs [.border 7]] :=
  ⟨rfl, rfl⟩

/-- The hypotheses of Lpeek8ReturnsMappedByte, Lpoke8WritesMappedByte, Lpeek16JoinsTwoMappedBytes,
Lpoke16WritesTwoMappedBytes and LogicalWriteThenReadReturnsIt, each clause at the edges of its range. -/
theorem witness_logical :
    (loadedWith recT).block = .loaded recT ∧ Memory.wf recT.bank ∧
    0x4000 ≤ (0x4000 : Word).toNat ∧ 0x4000 ≤ (0xFFFF : Word).toNat ∧ (0x3FFF : Word).toNat < 0x4000 ∧
    (0xFFFE : Word).toNat < 0xFFFF ∧ (0xFFFF : Word).toNat = 0xFFFF := by decide

theorem witness_TranslatorNamesAnExistingBankByte :
    recT.paged ∧ recU.paged ∧ (0x3FFF : Word).toNat < 0x4000 ∧ 0x4000 ≤ (0x4000 : Word).toNat :=
  ⟨recT_inv.1, recU_inv.1, by decide, by decide⟩

/-- The hypotheses of Bpeek8ReturnsBankByte, Bpoke8WritesBankByte, Bpeek16JoinsTwoBankBytes and
Bpoke16WritesTwoBankBytes: the last bank and the first missing one, the last offset with and without wrap. -/
theorem witness_bank :
    (loadedWith recT).block = .loaded recT ∧ Memory.wf recT.bank ∧
    (7 : Byte).toNat < bankCount recT.fmt ∧ bankCount recT.fmt ≤ (8 : Byte).toNat ∧
    (2 : Byte).toNat < bankCount recU.fmt ∧ bankCount recU.fmt ≤ (3 : Byte).toNat ∧
    ((0x7FFF : Word).toNat % 0x4000 = 0x3FFF ∧ (7 : Byte).toNat + 1 = bankCount recT.fmt) ∧
    ¬ (bankCount recT.fmt ≤ (6 : Byte).toNat ∨
      ((0x3FFF : Word).toNat % 0x4000 = 0x3FFF ∧ (6 : Byte).toNat + 1 = bankCount recT.fmt)) := by decide

theorem witness_BankWriteThenReadReturnsIt :
    (∃ t S', exec (.bpoke8 7 0x3FFF 0x42) (loadedWith recT) = .next t ∧ t.block = .loaded S') ∧
    (∃ t S', exec (.bpoke16 7 0x3FFF 0xCAFE true) (loadedWith recT) = .next t ∧ t.block = .loaded S') ∧
    (loadedWith recT).block = .loaded recT ∧ Memory.wf recT.bank :=
  ⟨⟨_, _, rfl, rfl⟩, ⟨_, _, rfl, rfl⟩, rfl, by decide⟩

theorem witness_BankCommandsIgnorePaging :
    (loadedWith recT).block = .loaded recT ∧
    (match (.bpoke16 7 0x3FFF 0xCAFE true : Instr) with
      | .bpeek8 _ _ => True
      | .bpoke8 _ _ _ => True
      | .bpeek16 _ _ _ => True
      | .bpoke16 _ _ _ _ => True
      | _ => False) := ⟨rfl, trivial⟩

/-- The hypotheses of LogicalAndBankReadsAgree and LogicalAndBankWritesCommute. -/
theorem witness_twoViews :
    (loadedWith recT).block = .loaded recT ∧ recT.Inv ∧ 0x4000 ≤ (0x4000 : Word).toNat ∧ 0x4000 ≤ (0xFFFF : Word).toNat :=
  ⟨rfl, recT_inv, by decide, by decide⟩

theorem witness_WindowsOfOneBankAlias :
    (recT5.Inv ∧ mapBank recT5 0x4010 = mapBank recT5 0xC010 ∧ (0x0D : Byte).toNat % 8 = 5) ∧
    (recT2.Inv ∧ mapBank recT2 0x8010 = mapBank recT2 0xC010 ∧ (0x02 : Byte).toNat % 8 = 2) ∧
    (recU.Inv ∧ recU.fmt = .smaller ∧ mapBank recU 0x4000 = mapBank recU 0x4000) ∧
    (0x4010 : Word).toNat % 0x4000 = (0xC010 : Word).toNat % 0x4000 :=
  ⟨⟨recT5_inv, by decide, by decide⟩, ⟨recT2_inv, by decide, by decide⟩, ⟨recU_inv, rfl, rfl⟩, by decide⟩

theorem witness_WritesAreIdempotent :
    ∃ t S', (loadedWith recT).block = .loaded recT ∧ Memory.wf recT.bank ∧
      exec (.lpoke16 0xFFFE 0xBEEF) (loadedWith recT) = .next t ∧ t.block = .loaded S' :=
  ⟨_, _, rfl, by decide, rfl, rfl⟩

theorem witness_SetpageWritesPcrAndSlot2 :
    ((loadedWith recT).block = .loaded recT ∧ recT.paged ∧ recT.fmt = .larger) ∧
    ((loadedWith recU).block = .loaded recU ∧ recU.paged ∧ recU.fmt = .smaller) :=
  ⟨⟨rfl, recT_inv.1, rfl⟩, rfl, recU_inv.1, rfl⟩

theorem witness_SetpageRemapsWindow3AtOnce :
    (loadedWith recT).block = .loaded recT ∧ recT.paged ∧ recT.fmt = .larger ∧ 0xC000 ≤ (0xC000 : Word).toNat :=
  ⟨rfl, recT_inv.1, rfl, by decide⟩

theorem witness_LoadOfSmallerImage :
    (withImage ⟨49179, []⟩).block = .unloaded ∧ (withImage ⟨49179, []⟩).image.length = 49179 := ⟨rfl, rfl⟩

/-- Both lengths of LoadOfLargerImage, at their least. -/
theorem witness_LoadOfLargerImage :
    (withImage (vectorImage 131103 3)).block = .unloaded ∧
    (Image.byteAt (vectorImage 131103 3) 49181).toNat % 8 = 3 ∧ 49183 + 16384 * 5 ≤ (vectorImage 131103 3).length ∧
    (Image.byteAt (vectorImage 147487 5) 49181).toNat % 8 = 5 ∧ 49183 + 16384 * 6 ≤ (vectorImage 147487 5).length := by
  decide

/-- The three clauses of LoadOfTruncatedImage, at their greatest lengths. -/
theorem witness_LoadOfTruncatedImage :
    (withImage ⟨49178, []⟩).image.length < 49179 ∧
    (49180 ≤ (withImage ⟨49182, []⟩).image.length ∧ (withImage ⟨49182, []⟩).image.length ≤ 49182) ∧
    ((Image.byteAt (vectorImage 147486 5) 49181).toNat % 8 = 5 ∧ (vectorImage 147486 5).length < 49183 + 16384 * 6) ∧
    ((Image.byteAt (vectorImage 131102 0) 49181).toNat % 8 = 0 ∧ (vectorImage 131102 0).length < 49183 + 16384 * 5) := by
  decide

theorem witness_LoadDecodesTheHeader :
    ∃ t S, (withImage ⟨49179, []⟩).block = .unloaded ∧ exec .load (withImage ⟨49179, []⟩) = .next t ∧
      t.block = .loaded S :=
  ⟨_, _, rfl, rfl, rfl⟩

/-- V-L13's image with its two extra bytes, and without them. -/
theorem witness_LoadIgnoresTrailingBytes :
    State.reset.block = .unloaded ∧ 49183 + 16384 * 5 ≤ 131105 ∧
    (Image.byteAt ⟨131105, [(131103, 1), (131104, 2)]⟩ 49181).toNat % 8 = 0 ∧
    ∀ o, o < 131103 → Image.byteAt ⟨131105, [(131103, 1), (131104, 2)]⟩ o = Image.byteAt ⟨131103, []⟩ o := by
  refine ⟨rfl, by decide, by decide, fun o ho => ?_⟩
  have h1 : ¬ 131103 = o := by omega
  have h2 : ¬ 131104 = o := by omega
  simp [Image.byteAt, Memory.read, h1, h2]

theorem witness_LoadMayBeRetriedAfterDecodeError :
    State.reset.block = .unloaded ∧ decode 0xF00000000000 = .ok .load ∧
    (⟨49178, []⟩ : Image).length < 49179 ∧ (⟨49179, []⟩ : Image).length = 49179 := ⟨rfl, rfl, by decide, rfl⟩

/-- The hypotheses of LoadWhenLoadedIsRefused and CommandsBeforeLoadAreRefused. -/
theorem witness_refusals :
    (loadedWith recT).block = .loaded recT ∧ State.reset.block = .unloaded ∧ (.setpage 0 : Instr) ≠ .load := by decide

/-- BlockMovesOnlyAsTabulated: each of the two moves is made. -/
theorem witness_BlockMovesOnlyAsTabulated :
    (∃ t S, exec .load (withImage ⟨49179, []⟩) = .next t ∧ t.block = .loaded S) ∧
    (∃ t, exec (.setpage 0) (loadedWith recU) = .next t ∧ t.block = .faulted recU .pagingUnsupported) :=
  ⟨⟨_, _, rfl, rfl⟩, _, rfl, rfl⟩

/-- The hypotheses of CommandFrame, LoadedBlockAnswersEveryCommand and PassthroughStateHasNoEffect. -/
theorem witness_CommandFrame :
    ∃ t S', (loadedWith recT).block = .loaded recT ∧ (.setpage 0xFF : Instr) ≠ .load ∧
      exec (.setpage 0xFF) (loadedWith recT) = .next t ∧ t.block.record? = some S' :=
  ⟨_, _, rfl, by decide, rfl, rfl⟩

/-- The hypotheses of FaultEntryLeavesTheRecord and FaultsByCommand, for each code. -/
theorem witness_FaultEntryLeavesTheRecord :
    (∃ t, exec (.lpeek16 0xFFFF) (loadedWith recT) = .next t ∧ t.block = .faulted recT .addressOutOfRange) ∧
    (∃ t, exec (.bpeek8 8 0) (loadedWith recT) = .next t ∧ t.block = .faulted recT .bankOutOfRange) ∧
    (∃ t, exec (.setpage 1) (loadedWith recU) = .next t ∧ t.block = .faulted recU .pagingUnsupported) :=
  ⟨⟨_, rfl, rfl⟩, ⟨_, rfl, rfl⟩, _, rfl, rfl⟩

theorem witness_ConfigurationIsFixedForLife :
    ∃ t, (loadedWith recT).block.record? = some recT ∧
      Host.Core.run Sys2Proof.core 1 (withWord (loadedWith recT) 0x9000000000FF ⟨0, []⟩) = .next t :=
  ⟨_, rfl, rfl⟩

theorem witness_RefusalMarkIsKept :
    ∃ t, ({ loadedWith recT with refusal := some .loadWhenLoaded } : State).refusal = some .loadWhenLoaded ∧
      Host.Core.run Sys2Proof.core 1
        (withWord { loadedWith recT with refusal := some .loadWhenLoaded } 0x1000C0000000 ⟨0, []⟩) = .next t :=
  ⟨_, rfl, rfl⟩

/-- The hypotheses of GoodRunHasNoFaultAndNoRefusal and GoodRunAnswersOkOnceLoaded, the latter at j = 0. -/
theorem witness_goodRuns :
    ∃ t, RunEndsWell 1 (withWord (loadedWith recT) 0x1000C0000000 ⟨0, []⟩) t ∧
      step (withWord (loadedWith recT) 0x1000C0000000 ⟨0, []⟩) = .next t ∧
      (withWord (loadedWith recT) 0x1000C0000000 ⟨0, []⟩).pending = [.command 0x1000C0000000 ⟨0, []⟩] :=
  ⟨_, ⟨rfl, ⟨_, rfl⟩, rfl⟩, rfl, rfl⟩

end Sys2Proof.Tests
end

section
/-! PROOFS. The state's family (10_state.md): what every step keeps of the record, how the block moves between its three
states, and what a command in Loaded can change or see. -/

namespace Sys2Proof.Machine

/-! ## A record that LOAD has just built -/

theorem smallerRecord_inv (img : Image) : (smallerRecord img).Inv :=
  ⟨⟨rfl, rfl⟩, smallerBanks_wf img, smallerBanks_inside img⟩

theorem largerRecord_inv (img : Image) : (largerRecord img).Inv :=
  ⟨⟨_, rfl, rfl, rfl, pagingBank_toNat _⟩, largerBanks_wf img, largerBanks_inside img⟩

theorem loadImage_ok_inv {img : Image} {S : Record} (h : loadImage img = .ok S) : S.Inv := by
  rcases loadImage_cases img with ⟨-, hl⟩ | ⟨-, hl⟩ | ⟨-, -, hl⟩
  · cases hl.symm.trans h
    exact smallerRecord_inv img
  · cases hl.symm.trans h
    exact largerRecord_inv img
  · cases hl.symm.trans h

/-! ## What every step keeps -/

section Step

variable {s t : State} {i : Instr}

/-- P holds of the block's record, if the block holds one. -/
def RecordHolds (P : Record → Prop) (s : State) : Prop := ∀ S, s.block.record? = some S → P S

@[simp] theorem recordHolds_complete (P : Record → Prop) (S : Record) (d : Word) :
    RecordHolds P (s.complete S d) ↔ P S := by
  simp [RecordHolds, Block.record?]

@[simp] theorem recordHolds_takeFault (P : Record → Prop) (S : Record) (c : FaultCode) :
    RecordHolds P (s.takeFault S c) ↔ P S := by
  simp [RecordHolds, Block.record?]

theorem RecordHolds.of_loaded {P : Record → Prop} {S : Record} (h : RecordHolds P s) (hb : s.block = .loaded S) : P S :=
  h S (by rw [hb]; rfl)

/-- What holds of every record LOAD builds and is kept by every completed command is kept by exec. -/
theorem exec_keeps_recordHolds {P : Record → Prop} (hload : ∀ img S, loadImage img = .ok S → P S)
    (hcmd : ∀ S S', RecordStep S S' → P S → P S') (hs : RecordHolds P s) (h : exec i s = .next t) :
    RecordHolds P t := by
  rcases exec_next_cases h with ⟨-, -, rfl⟩ | ⟨-, -, e, -, rfl⟩ | ⟨-, -, S, hS, rfl⟩ | ⟨S, -, -, rfl⟩ |
    ⟨S, c, hb, -, rfl⟩ | ⟨S, S', d, hb, -, hstep, rfl⟩
  · exact hs
  · exact hs
  · exact (recordHolds_complete P S 0).2 (hload _ _ hS)
  · exact hs
  · exact (recordHolds_takeFault P S c).2 (hs.of_loaded hb)
  · exact (recordHolds_complete P S' d).2 (hcmd S S' hstep (hs.of_loaded hb))

/-- What holds of every record LOAD builds, is kept by every completed command and does not look at regs is kept by
every step. -/
theorem step_keeps_recordHolds {P : Record → Prop} (hload : ∀ img S, loadImage img = .ok S → P S)
    (hcmd : ∀ S S', RecordStep S S' → P S → P S') (hregs : ∀ S g, P S → P { S with regs := g })
    (hs : RecordHolds P s) (h : step s = .next t) : RecordHolds P t := by
  obtain ⟨-, ⟨-, rfl⟩ | ⟨w, img, rest, e, -, -, rfl⟩ | ⟨w, img, rest, i, -, -, hexec⟩ |
    ⟨edits, rest, S, -, hb, rfl⟩⟩ := step_next_cases h
  · exact hs
  · exact hs
  · exact exec_keeps_recordHolds hload hcmd (s := s.accept rest img) hs hexec
  · rintro _ ⟨⟩
    exact hregs _ _ (hs.of_loaded hb)

/-- A block that exec leaves Faulted has answered FAULT with its code (60_exceptions.md R204). -/
theorem exec_faulted_response {S : Record} {c : FaultCode} (h : exec i s = .next t) (ht : t.block = .faulted S c) :
    t.response = some (faultResponse c) := by
  rcases exec_next_cases h with ⟨hb, -, rfl⟩ | ⟨hb, -, e, -, rfl⟩ | ⟨-, -, S, -, rfl⟩ | ⟨S, hb, -, rfl⟩ |
    ⟨S, c', -, -, rfl⟩ | ⟨S, S', d, -, -, -, rfl⟩
  · cases hb.symm.trans ht
  · cases hb.symm.trans ht
  · cases ht
  · cases hb.symm.trans ht
  · cases ht
    rfl
  · cases ht

/-- A block that a step leaves Faulted has answered FAULT with its code: the step was the command that faulted. -/
theorem step_faulted_response {S : Record} {c : FaultCode} (h : step s = .next t) (ht : t.block = .faulted S c) :
    t.response = some (faultResponse c) := by
  obtain ⟨hnf, ⟨-, rfl⟩ | ⟨w, img, rest, e, -, -, rfl⟩ | ⟨w, img, rest, i, -, -, hexec⟩ |
    ⟨edits, rest, S, -, -, rfl⟩⟩ := step_next_cases h
  · exact absurd ht (hnf _ _)
  · exact absurd ht (hnf _ _)
  · exact exec_faulted_response hexec ht
  · cases ht

end Step

/-- Settles O3: the record's invariant is one that LOAD establishes and every command keeps, and only a command that
faults leaves the block Faulted. -/
theorem stepKeepsInvariant : Obligations.StepKeepsInvariant := by
  intro s t ⟨hs, _⟩ h
  have hrecord : RecordHolds Record.Inv t :=
    step_keeps_recordHolds (fun _ _ => loadImage_ok_inv) (fun _ _ => RecordStep.keeps_inv) (fun _ _ hS => hS) hs h
  exact ⟨hrecord, fun _ _ => step_faulted_response h⟩

/-- The slots of a page table that follows the configuration name existing banks (10_state.md R27). -/
theorem slots_lt_bankCount {S : Record} (h : S.paged) : S.pt.slot0.toNat < bankCount S.fmt ∧
    S.pt.slot1.toNat < bankCount S.fmt ∧ S.pt.slot2.toNat < bankCount S.fmt :=
  ⟨mapBank_lt h 0x4000, mapBank_lt h 0x8000, mapBank_lt h 0xC000⟩

/-- Settles O4: the agreement of page table and configuration is kept by every step, and it bounds the slots. -/
theorem pageTableFollowsConfiguration : Obligations.PageTableFollowsConfiguration := by
  intro s t hs h S hS
  have hpaged : RecordHolds Record.paged t :=
    step_keeps_recordHolds (fun _ _ hl => (loadImage_ok_inv hl).1) (fun _ _ => RecordStep.keeps_paged)
      (fun _ _ hp => hp) hs h
  exact ⟨hpaged S hS, slots_lt_bankCount (hpaged S hS)⟩

/-- Settles O40, by the six ways exec answers a next state. -/
theorem blockMovesOnlyAsTabulated : Obligations.BlockMovesOnlyAsTabulated := by
  intro i s t h
  rcases exec_next_cases h with ⟨hb, -, rfl⟩ | ⟨hb, -, e, -, rfl⟩ | ⟨hb, rfl, S, -, rfl⟩ | ⟨S, hb, -, rfl⟩ |
    ⟨S, c, hb, -, rfl⟩ | ⟨S, S', d, hb, -, -, rfl⟩
  · exact ⟨fun _ hmove => absurd rfl hmove, by simp [hb], by simp [hb]⟩
  · exact ⟨fun _ hmove => absurd rfl hmove, by simp [hb], by simp [hb]⟩
  · exact ⟨fun _ _ => ⟨rfl, ⟨S, rfl⟩, rfl⟩, by simp [hb], by simp [hb]⟩
  · exact ⟨by simp [hb], fun _ _ => .inl ⟨S, hb⟩, by simp [hb]⟩
  · refine ⟨by simp [hb], fun R hR => .inr ⟨c, ?_, rfl⟩, by simp [hb]⟩
    cases hb.symm.trans hR
    rfl
  · exact ⟨by simp [hb], fun _ _ => .inl ⟨S', rfl⟩, by simp [hb]⟩

/-! ## What a command does to the record -/

/-- f is what command i does to the record of a Loaded block: exec runs f in the frame of 60_exceptions.md R208. -/
def RunsAs (i : Instr) (f : Record → Except FaultCode (Record × Word)) : Prop := ∀ s, exec i s = s.runLoaded f

/-- The four commands that write bank bytes. -/
def storesBank : Instr → Bool
  | .lpoke8 _ _ | .lpoke16 _ _ | .bpoke8 _ _ _ | .bpoke16 _ _ _ _ => true
  | _ => false

theorem storesBank_eq_false {i : Instr} (h8 : ∀ a v, i ≠ .lpoke8 a v) (h16 : ∀ a v, i ≠ .lpoke16 a v)
    (hb8 : ∀ b a v, i ≠ .bpoke8 b a v) (hb16 : ∀ b a v w, i ≠ .bpoke16 b a v w) : storesBank i = false := by
  cases i with
  | lpoke8 a v => exact absurd rfl (h8 a v)
  | lpoke16 a v => exact absurd rfl (h16 a v)
  | bpoke8 b a v => exact absurd rfl (hb8 b a v)
  | bpoke16 b a v w => exact absurd rfl (hb16 b a v w)
  | _ => rfl

/-- What command i can end in on record S. -/
inductive CommandResult (i : Instr) (S : Record) : Except FaultCode (Record × Word) → Prop where
  | fault (c : FaultCode) : CommandResult i S (.error c)
  | read (data : Word) : CommandResult i S (.ok (S, data))
  | store (m : Memory) (hi : storesBank i = true) : CommandResult i S (.ok ({ S with bank := m }, 0))
  | page (v : Byte) (hi : i = .setpage v) : CommandResult i S (.ok (setPaging S v, 0))

theorem memWrite_cases (S : Record) (addr : Word) (v : Byte) :
    memWrite S addr v = .error .addressOutOfRange ∨ ∃ p, memWrite S addr v = .ok (writePlace S p v) := by
  rcases Nat.lt_or_ge addr.toNat 0x4000 with h | h
  · exact .inl (memWrite_of_unmapped S v h)
  · exact .inr ⟨_, memWrite_of_mapped S v h⟩

theorem bankWrite_cases (S : Record) (p : Place) (v : Byte) :
    bankWrite S p v = .error .bankOutOfRange ∨ bankWrite S p v = .ok (writePlace S p v) := by
  rcases Nat.lt_or_ge p.bank (bankCount S.fmt) with h | h
  · exact .inr (bankWrite_ok v h)
  · exact .inl (bankWrite_error v h)

/-- Every command but LOAD runs in the frame, and what it does to the record is of its kind. -/
theorem exists_runsAs_result {i : Instr} (hi : i ≠ .load) : ∃ f, RunsAs i f ∧ ∀ S, CommandResult i S (f S) := by
  cases i with
  | load => exact absurd rfl hi
  | lpeek8 addr => exact ⟨_, fun _ => rfl, fun S => .read _⟩
  | lpoke8 addr v =>
    refine ⟨_, fun _ => rfl, fun S => ?_⟩
    rcases memWrite_cases S addr v with h | ⟨p, h⟩ <;> simp only [h]
    · exact .fault _
    · exact .store _ rfl
  | lpeek16 addr =>
    refine ⟨_, fun _ => rfl, fun S => ?_⟩
    split
    · exact .fault _
    · exact .read _
  | lpoke16 addr v =>
    refine ⟨_, fun _ => rfl, fun S => ?_⟩
    split
    · exact .fault _
    split
    · exact .fault _
    rcases memWrite_cases S addr (loByte v) with h | ⟨p, h⟩ <;> simp only [h]
    · exact .fault _
    rcases memWrite_cases (writePlace S p (loByte v)) (addr + 1) (hiByte v) with h | ⟨q, h⟩ <;> simp only [h]
    · exact .fault _
    · exact .store _ rfl
  | bpeek8 bank addr =>
    refine ⟨_, fun _ => rfl, fun S => ?_⟩
    split
    · exact .fault _
    · exact .read _
  | bpoke8 bank addr v =>
    refine ⟨_, fun _ => rfl, fun S => ?_⟩
    rcases bankWrite_cases S (bankOperand bank addr) v with h | h <;> simp only [h]
    · exact .fault _
    · exact .store _ rfl
  | bpeek16 bank addr wrap =>
    refine ⟨_, fun _ => rfl, fun S => ?_⟩
    dsimp only
    split
    · exact .fault _
    split
    · exact .fault _
    · exact .read _
  | bpoke16 bank addr v wrap =>
    refine ⟨_, fun _ => rfl, fun S => ?_⟩
    dsimp only
    split
    · exact .fault _
    split
    · exact .fault _
    · exact .store _ rfl
  | setpage v =>
    refine ⟨_, fun _ => rfl, fun S => ?_⟩
    split
    · exact .fault _
    · exact .page v rfl

/-- Settles O39: the frame of every command but LOAD refuses in Unloaded. -/
theorem commandsBeforeLoadAreRefused : Obligations.CommandsBeforeLoadAreRefused := by
  intro s i hs hi
  obtain ⟨f, hf, -⟩ := exists_runsAs_result hi
  exact ⟨s.refuse .notLoaded, by rw [hf, runLoaded_of_unloaded hs], hs, rfl, by simp⟩

/-- Settles O11: the step finds neither a cause to be stuck nor a move to make. -/
theorem stepWithoutAMoveIdles : Obligations.StepWithoutAMoveIdles := by
  intro s hs hp
  rw [step, stepBlock, stuckCause_eq_none hs, hp]

/-! ### The frame of a command -/

theorem finish_pending_image_refusal (s : State) (S : Record) (r : Except FaultCode (Record × Word)) :
    (s.finish S r).pending = s.pending ∧ (s.finish S r).image = s.image ∧ (s.finish S r).refusal = s.refusal := by
  cases r <;> exact ⟨rfl, rfl, rfl⟩

/-- The record that a command with result r leaves of S: the old one after a fault, else the command's. -/
def recordAfter (S : Record) : Except FaultCode (Record × Word) → Record
  | .error _ => S
  | .ok (S', _) => S'

theorem finish_record? (s : State) (S : Record) (r : Except FaultCode (Record × Word)) :
    (s.finish S r).block.record? = some (recordAfter S r) := by
  cases r <;> rfl

/-- Settles O41, by the kinds of result a command can end in. -/
theorem commandFrame : Obligations.CommandFrame := by
  intro i s t S S' hb hi h ht
  obtain ⟨f, hf, hresult⟩ := exists_runsAs_result hi
  rw [hf, runLoaded_of_loaded hb] at h
  cases h
  refine ⟨finish_pending_image_refusal s S (f S), ?_⟩
  rw [finish_record?, Option.some_inj] at ht
  subst ht
  have hS := hresult S
  generalize f S = r at hS ⊢
  cases hS with
  | fault c => simp [recordAfter]
  | read d => simp [recordAfter]
  | store m hst =>
    refine ⟨⟨rfl, rfl, rfl, rfl, rfl, rfl⟩, fun _ => ⟨rfl, rfl⟩, fun h1 h2 h3 h4 => ?_⟩
    cases hst.symm.trans (storesBank_eq_false h1 h2 h3 h4)
  | page v hv =>
    refine ⟨?_, fun hne => absurd hv (hne v), fun _ _ _ _ => rfl⟩
    simp [recordAfter, Function.comp_def]

/-! ### The passthrough fields -/

section Passthrough

variable (S : Record) (regs' : Regs) (pc' : Word) (aux' : Byte)

/-- S with other values of the fields the block only stores (10_state.md R31, R32). -/
def Record.withPassthrough : Record :=
  { S with regs := regs', ext := S.ext.map (fun e => { e with pc := pc', aux := aux' }) }

theorem memWrite_withPassthrough (addr : Word) (v : Byte) :
    memWrite (S.withPassthrough regs' pc' aux') addr v =
      (memWrite S addr v).map (·.withPassthrough regs' pc' aux') := by
  rcases Nat.lt_or_ge addr.toNat 0x4000 with h | h
  · rw [memWrite_of_unmapped _ _ h, memWrite_of_unmapped _ _ h]
    rfl
  · rw [memWrite_of_mapped _ _ h, memWrite_of_mapped _ _ h]
    rfl

@[simp] theorem withPassthrough_fmt : (S.withPassthrough regs' pc' aux').fmt = S.fmt := rfl

@[simp] theorem bankCheck_withPassthrough (b : Nat) :
    bankCheck (S.withPassthrough regs' pc' aux') b = bankCheck S b := rfl

@[simp] theorem readPlace_withPassthrough (p : Place) :
    readPlace (S.withPassthrough regs' pc' aux') p = readPlace S p := rfl

@[simp] theorem bankRead_withPassthrough (p : Place) :
    bankRead (S.withPassthrough regs' pc' aux') p = bankRead S p := rfl

theorem bankWrite_withPassthrough (p : Place) (v : Byte) :
    bankWrite (S.withPassthrough regs' pc' aux') p v =
      (bankWrite S p v).map (·.withPassthrough regs' pc' aux') := by
  rw [bankWrite, bankWrite, bankCheck_withPassthrough]
  cases bankCheck S p.bank <;> rfl

theorem setPaging_withPassthrough (v : Byte) :
    setPaging (S.withPassthrough regs' pc' aux') v = (setPaging S v).withPassthrough regs' pc' aux' := by
  simp [setPaging, Record.withPassthrough, Function.comp_def]

end Passthrough

/-- Every command but LOAD does the same to two records that differ in the passthrough fields alone. -/
theorem exists_runsAs_withPassthrough {i : Instr} (hi : i ≠ .load) (regs' : Regs) (pc' : Word) (aux' : Byte) :
    ∃ f, RunsAs i f ∧ ∀ S : Record, f (S.withPassthrough regs' pc' aux') =
      (f S).map (fun r => (r.1.withPassthrough regs' pc' aux', r.2)) := by
  cases i with
  | load => exact absurd rfl hi
  | lpeek8 addr => exact ⟨_, fun _ => rfl, fun S => rfl⟩
  | lpoke8 addr v =>
    refine ⟨_, fun _ => rfl, fun S => ?_⟩
    simp only [memWrite_withPassthrough]
    cases memWrite S addr v <;> rfl
  | lpeek16 addr =>
    refine ⟨_, fun _ => rfl, fun S => ?_⟩
    split <;> rfl
  | lpoke16 addr v =>
    refine ⟨_, fun _ => rfl, fun S => ?_⟩
    split
    · rfl
    split
    · rfl
    simp only [memWrite_withPassthrough]
    cases memWrite S addr (loByte v) with
    | error c => rfl
    | ok S1 =>
      simp only [Except.map, memWrite_withPassthrough]
      cases memWrite S1 (addr + 1) (hiByte v) <;> rfl
  | bpeek8 bank addr =>
    refine ⟨_, fun _ => rfl, fun S => ?_⟩
    simp only [bankRead_withPassthrough]
    cases bankRead S (bankOperand bank addr) <;> rfl
  | bpoke8 bank addr v =>
    refine ⟨_, fun _ => rfl, fun S => ?_⟩
    simp only [bankWrite_withPassthrough]
    cases bankWrite S (bankOperand bank addr) v <;> rfl
  | bpeek16 bank addr wrap =>
    refine ⟨_, fun _ => rfl, fun S => ?_⟩
    simp only [bankCheck_withPassthrough, readPlace_withPassthrough]
    split
    · rfl
    · split <;> rfl
  | bpoke16 bank addr v wrap =>
    refine ⟨_, fun _ => rfl, fun S => ?_⟩
    simp only [bankCheck_withPassthrough]
    split
    · rfl
    · split <;> rfl
  | setpage v =>
    refine ⟨_, fun _ => rfl, fun S => ?_⟩
    simp only [withPassthrough_fmt, setPaging_withPassthrough]
    split <;> rfl

/-- The end of a command answers the same on two records that differ in the passthrough fields alone. -/
theorem finish_withPassthrough (s s' : State) (S : Record) (regs' : Regs) (pc' : Word) (aux' : Byte)
    (r : Except FaultCode (Record × Word)) :
    let r' := r.map (fun x => (x.1.withPassthrough regs' pc' aux', x.2))
    (s.finish S r).response = (s'.finish (S.withPassthrough regs' pc' aux') r').response ∧
      recordAfter (S.withPassthrough regs' pc' aux') r' = (recordAfter S r).withPassthrough regs' pc' aux' := by
  cases r <;> exact ⟨rfl, rfl⟩

/-- Settles O45: what a command does to the record commutes with a change of the passthrough fields, and so does its
end. -/
theorem passthroughStateHasNoEffect : Obligations.PassthroughStateHasNoEffect := by
  intro i s S regs' pc' aux' hb hi
  obtain ⟨f, hf, hcomm⟩ := exists_runsAs_withPassthrough hi regs' pc' aux'
  obtain ⟨hresponse, hrecord⟩ :=
    finish_withPassthrough s { s with block := .loaded (S.withPassthrough regs' pc' aux') } S regs' pc' aux' (f S)
  rw [← hcomm] at hresponse hrecord
  exact ⟨_, _, _, (hf s).trans (runLoaded_of_loaded hb), (hf _).trans (runLoaded_of_loaded rfl), hresponse,
    finish_record? _ _ _, (finish_record? _ _ _).trans (congrArg some hrecord)⟩

end Sys2Proof.Machine
end

section
/-! PROOFS. The memory family (20_memory.md): the address map as the translator has it, the rules of the four byte
commands, and the two views of a bank byte. -/

namespace Sys2Proof.Machine

/-! ## The step on a command word -/

theorem step_of_command {s : State} {w : CommandWord} {img : Image} {rest : List HostMove}
    (hs : ∀ S c, s.block ≠ .faulted S c) (hp : s.pending = .command w img :: rest) :
    step s = issueWord w img rest s := by
  rw [step, stepBlock, stuckCause_eq_none hs, hp]
  rfl

theorem issueWord_of_decode_ok {w : CommandWord} {i : Instr} (h : decode w = .ok i) (img : Image)
    (rest : List HostMove) (s : State) : issueWord w img rest s = exec i (s.accept rest img) := by
  rw [issueWord, h]

/-- Settles O10: the step issues the word, and the word is a command. -/
theorem stepRunsTheDecodedCommand : Obligations.StepRunsTheDecodedCommand := by
  intro s w img rest i hs hp hw
  exact (step_of_command hs hp).trans (issueWord_of_decode_ok hw img rest s)

/-! ## The address map -/

section Map

variable {S : Record} {addr addr' : Word}

/-- The bank byte that the map of 20_memory.md R56 gives a logical address from 0x4000 on. -/
def mapPlace (S : Record) (addr : Word) : Place := ⟨mapBank S addr, offsetOf addr⟩

theorem mapBank_of_window1 (h : addr.toNat < 0x8000) : mapBank S addr = S.pt.slot0.toNat := by
  rw [mapBank, if_pos h]

theorem mapBank_of_window2 (h : 0x8000 ≤ addr.toNat) (h' : addr.toNat < 0xC000) :
    mapBank S addr = S.pt.slot1.toNat := by
  rw [mapBank, if_neg (Nat.not_lt.2 h), if_pos h']

theorem mapBank_of_window3 (h : 0xC000 ≤ addr.toNat) : mapBank S addr = S.pt.slot2.toNat := by
  rw [mapBank, if_neg (by omega), if_neg (Nat.not_lt.2 h)]

/-- In Smaller window k shows bank k - 1 (10_state.md R26). -/
theorem mapBank_of_smaller (h : S.paged) (hf : S.fmt = .smaller) (haddr : 0x4000 ≤ addr.toNat) :
    mapBank S addr = addr.toNat / 0x4000 - 1 := by
  rw [Record.paged, hf] at h
  have hlt := addr.isLt
  rw [mapBank, h.1]
  split
  · change 0 = _
    omega
  · split
    · change 1 = _
      omega
    · change 2 = _
      omega

/-- A record with an extension is Larger, and its page table is [5, 2, pcr & 7] (10_state.md R26, R30). -/
theorem slots_of_ext {e : Extension} (h : S.paged) (he : S.ext = some e) :
    S.pt.slot0 = 5 ∧ S.pt.slot1 = 2 ∧ S.pt.slot2.toNat = e.pcr.toNat % 8 := by
  rw [Record.paged] at h
  split at h
  · cases he.symm.trans h.2
  · obtain ⟨e', he', hslots⟩ := h
    cases he.symm.trans he'
    exact hslots

theorem mapPlace_eq_iff : mapPlace S addr = mapPlace S addr' ↔
    mapBank S addr = mapBank S addr' ∧ addr.toNat % 0x4000 = addr'.toNat % 0x4000 := by
  rw [mapPlace, mapPlace, Place.mk.injEq, ← BitVec.toNat_inj, offsetOf_toNat, offsetOf_toNat]

/-- A write to a bank byte leaves the map as it was. -/
@[simp] theorem mapPlace_writePlace (p : Place) (v : Byte) (addr : Word) :
    mapPlace (writePlace S p v) addr = mapPlace S addr := rfl

theorem mapByte_of_mapped (h : 0x4000 ≤ addr.toNat) : mapByte S addr = readPlace S (mapPlace S addr) := by
  rw [mapByte, if_neg (Nat.not_lt.2 h), readPlace_eq, mapPlace, offsetOf_toNat]

theorem bankCount_le_eight (fmt : Format) : bankCount fmt ≤ 8 := by
  cases fmt <;> decide

/-- The mapped bank fits the BANK field. -/
theorem mapBank_field_toNat (h : S.paged) (addr : Word) :
    (BitVec.ofNat 8 (mapBank S addr)).toNat = mapBank S addr := by
  have := mapBank_lt h addr
  have := bankCount_le_eight S.fmt
  exact Nat.mod_eq_of_lt (by omega)

/-- The operands that name the mapped bank byte to a bank-relative command (20_memory.md R71). -/
theorem bankOperand_of_mapped (h : S.paged) (addr : Word) :
    bankOperand (BitVec.ofNat 8 (mapBank S addr)) (addr &&& 0x3FFF) = mapPlace S addr := by
  rw [bankOperand, mapPlace, mapBank_field_toNat h, offsetOf_mask]

/-- A byte of an existing bank lies below N × 0x4000 (20_memory.md R53). -/
theorem physical_lt {p : Place} {n : Nat} (h : p.bank < n) : physical p < n * 0x4000 := by
  have := p.off.isLt
  have : (p.bank + 1) * 0x4000 ≤ n * 0x4000 := Nat.mul_le_mul_right _ h
  rw [physical, Config.bankSize]
  omega

end Map

/-- Settles O19: the translator is the address map, and the page table names existing banks. -/
theorem translatorNamesAnExistingBankByte : Obligations.TranslatorNamesAnExistingBankByte := by
  intro S addr hS
  refine ⟨translate_of_unmapped S.pt, fun h => ⟨mapPlace S addr, translate_of_mapped S h, rfl, offsetOf_toNat addr,
    mapBank_lt hS addr, ?_⟩⟩
  have hlt : physical (mapPlace S addr) < bankCount S.fmt * 0x4000 := physical_lt (mapBank_lt hS addr)
  cases hf : S.fmt <;> rwa [hf] at hlt

/-! ## The rules of the byte commands in Loaded -/

section ByteCommands

variable {s : State} {S : Record} {bank : Byte} {addr : Word}

/-- A write changes the byte at its own place and no other. -/
theorem readPlace_writePlace (h : Memory.wf S.bank) (p q : Place) (v : Byte) :
    readPlace (writePlace S p v) q = if physical q = physical p then v else readPlace S q :=
  Memory.read_write h _ _ v

theorem readPlace_writePlace_same (h : Memory.wf S.bank) (p : Place) (v : Byte) :
    readPlace (writePlace S p v) p = v := by
  rw [readPlace_writePlace h, if_pos rfl]

theorem exec_lpeek8_of_loaded (hb : s.block = .loaded S) (addr : Word) :
    exec (.lpeek8 addr) s = .next (s.complete S (zext16 (mapByte S addr))) := by
  rw [← memRead_eq_mapByte]
  exact runLoaded_of_loaded hb

theorem exec_lpoke8_of_mapped (hb : s.block = .loaded S) (h : 0x4000 ≤ addr.toNat) (v : Byte) :
    exec (.lpoke8 addr v) s = .next (s.complete (writePlace S (mapPlace S addr) v) 0) := by
  rw [exec, execLpoke8, runLoaded_of_loaded hb, memWrite_of_mapped S v h]
  rfl

theorem exec_bpeek8_of_lt (hb : s.block = .loaded S) (h : bank.toNat < bankCount S.fmt) (addr : Word) :
    exec (.bpeek8 bank addr) s = .next (s.complete S (zext16 (readPlace S (bankOperand bank addr)))) := by
  rw [exec, execBpeek8, runLoaded_of_loaded hb, bankRead_ok h]
  rfl

theorem exec_bpoke8_of_lt (hb : s.block = .loaded S) (h : bank.toNat < bankCount S.fmt) (addr : Word) (v : Byte) :
    exec (.bpoke8 bank addr v) s = .next (s.complete (writePlace S (bankOperand bank addr) v) 0) := by
  rw [exec, execBpoke8, runLoaded_of_loaded hb, bankWrite_ok v h]
  rfl

/-! ## The mapped byte in the bank-relative view -/

theorem exec_bpeek8_of_mapped (hb : s.block = .loaded S) (hS : S.paged) (addr : Word) :
    exec (.bpeek8 (BitVec.ofNat 8 (mapBank S addr)) (addr &&& 0x3FFF)) s =
      .next (s.complete S (zext16 (readPlace S (mapPlace S addr)))) := by
  rw [exec_bpeek8_of_lt hb (by rw [mapBank_field_toNat hS]; exact mapBank_lt hS addr), bankOperand_of_mapped hS]

theorem exec_bpoke8_of_mapped (hb : s.block = .loaded S) (hS : S.paged) (addr : Word) (v : Byte) :
    exec (.bpoke8 (BitVec.ofNat 8 (mapBank S addr)) (addr &&& 0x3FFF) v) s =
      .next (s.complete (writePlace S (mapPlace S addr) v) 0) := by
  rw [exec_bpoke8_of_lt hb (by rw [mapBank_field_toNat hS]; exact mapBank_lt hS addr), bankOperand_of_mapped hS]

/-- After a byte is stored at the place that addr is mapped to, LPEEK8 addr answers it. -/
theorem mapByte_writePlace_mapPlace (h : Memory.wf S.bank) (haddr : 0x4000 ≤ addr.toNat) (v : Byte) :
    mapByte (writePlace S (mapPlace S addr) v) addr = v := by
  rw [mapByte_of_mapped haddr, mapPlace_writePlace, readPlace_writePlace_same h]

end ByteCommands

/-- Settles O26: both views read the place that the address is mapped to. -/
theorem logicalAndBankReadsAgree : Obligations.LogicalAndBankReadsAgree := by
  intro s S addr hb hS haddr
  refine ⟨_, exec_lpeek8_of_loaded hb addr, ?_, rfl⟩
  rw [exec_bpeek8_of_mapped hb hS, mapByte_of_mapped haddr]

/-- Settles O27: both views write and read the place that the address is mapped to, and a write leaves the map. -/
theorem logicalAndBankWritesCommute : Obligations.LogicalAndBankWritesCommute := by
  intro s S addr v hb ⟨hpaged, hwf, _⟩ haddr
  constructor
  · refine ⟨_, _, exec_bpoke8_of_mapped hb hpaged addr v, exec_lpeek8_of_loaded rfl addr, ?_⟩
    rw [mapByte_writePlace_mapPlace hwf haddr]
    rfl
  · refine ⟨_, _, exec_lpoke8_of_mapped hb haddr v,
      exec_bpeek8_of_mapped (S := writePlace S (mapPlace S addr) v) rfl hpaged addr, ?_⟩
    rw [mapPlace_writePlace, readPlace_writePlace_same hwf]
    rfl

/-- Settles O28: a write and a read meet in the one place that both addresses are mapped to, and the page table says
which windows show one bank. -/
theorem windowsOfOneBankAlias : Obligations.WindowsOfOneBankAlias := by
  intro s S addr addr' v hb ⟨hpaged, hwf, _⟩ haddr haddr' hoff
  refine ⟨fun hbank => ?_, fun e he hpcr h1 h3 => ?_, fun e he hpcr h2 h2' h3 => ?_, fun hf hbank => ?_⟩
  · have hplace : mapPlace S addr = mapPlace S addr' := mapPlace_eq_iff.2 ⟨hbank, hoff⟩
    refine ⟨_, _, exec_lpoke8_of_mapped hb haddr v, exec_lpeek8_of_loaded rfl addr', ?_⟩
    rw [hplace, mapByte_writePlace_mapPlace hwf haddr']
    rfl
  · obtain ⟨hslot0, -, hslot2⟩ := slots_of_ext hpaged he
    rw [mapBank_of_window1 h1, mapBank_of_window3 h3, hslot0, hslot2, hpcr]
    rfl
  · obtain ⟨-, hslot1, hslot2⟩ := slots_of_ext hpaged he
    rw [mapBank_of_window2 h2 h2', mapBank_of_window3 h3, hslot1, hslot2, hpcr]
    rfl
  · rw [mapBank_of_smaller hpaged hf haddr, mapBank_of_smaller hpaged hf haddr'] at hbank
    exact BitVec.eq_of_toNat_eq (by omega)

end Sys2Proof.Machine
end

section
/-! PROOFS. The encoding family (30_encoding.md): the OP table as one function that the decoder reads, the fields of a
word under a mask, the header of a loaded image, and the answer of every command. -/

namespace Sys2Proof

/-! ## The OP table -/

/-- The rows of the OP table (30_encoding.md R82): the command that OP selects, with its operands at their fields;
none where OP is reserved (R84). -/
def commandOf (op : BitVec 4) : Option (CommandWord → Instr) :=
  match op.toNat with
  | 1 => some fun w => .lpeek8 (fieldAddr w)
  | 2 => some fun w => .lpoke8 (fieldAddr w) (fieldData8 w)
  | 3 => some fun w => .lpeek16 (fieldAddr w)
  | 4 => some fun w => .lpoke16 (fieldAddr w) (fieldData w)
  | 5 => some fun w => .bpeek8 (fieldBank w) (fieldAddr w)
  | 6 => some fun w => .bpoke8 (fieldBank w) (fieldAddr w) (fieldData8 w)
  | 7 => some fun w => .bpeek16 (fieldBank w) (fieldAddr w) (fieldWrap w)
  | 8 => some fun w => .bpoke16 (fieldBank w) (fieldAddr w) (fieldData w) (fieldWrap w)
  | 9 => some fun w => .setpage (fieldData8 w)
  | 15 => some fun _ => .load
  | _ => none

/-- The OPs without a row are 0 and 0xA to 0xE (30_encoding.md R84). -/
theorem commandOf_eq_none_iff (op : BitVec 4) :
    commandOf op = none ↔ op.toNat = 0 ∨ (10 ≤ op.toNat ∧ op.toNat ≤ 14) := by
  have h : ∀ op : BitVec 4,
      (commandOf op).isNone = true ↔ op.toNat = 0 ∨ (10 ≤ op.toNat ∧ op.toNat ≤ 14) := by decide
  rw [← h op, Option.isNone_iff_eq_none]

/-- Each of the 16 values of OP leads the decoder to its row. -/
theorem decode_of_rsv_eq_zero {w : CommandWord} (hrsv : fieldRsv w = 0) :
    decode w = (commandOf (fieldOp w)).elim (.error ⟨fieldOp w, fieldRsv w⟩) fun f => .ok (f w) := by
  rw [decode, if_neg (not_not.2 hrsv)]
  generalize fieldOp w = op
  obtain ⟨⟨k, hk⟩⟩ := op
  interval_cases k <;> rfl

theorem decode_of_row {w : CommandWord} {f : CommandWord → Instr} (hrsv : fieldRsv w = 0)
    (hrow : commandOf (fieldOp w) = some f) : decode w = .ok (f w) := by
  rw [decode_of_rsv_eq_zero hrsv, hrow]
  rfl

theorem decode_eq_error_of_rsv_ne_zero {w : CommandWord} (hrsv : fieldRsv w ≠ 0) :
    decode w = .error ⟨fieldOp w, fieldRsv w⟩ := by
  rw [decode, if_pos hrsv]

theorem decode_eq_error_of_no_row {w : CommandWord} (hrow : commandOf (fieldOp w) = none) :
    decode w = .error ⟨fieldOp w, fieldRsv w⟩ := by
  by_cases hrsv : fieldRsv w = 0
  · rw [decode_of_rsv_eq_zero hrsv, hrow]
    rfl
  · exact decode_eq_error_of_rsv_ne_zero hrsv

/-! ## Fields under a mask -/

section Masks

variable {v w m : CommandWord} {start len : Nat}

/-- A mask with ones all over a field keeps the field. -/
theorem extractLsb'_and_mask (w : CommandWord) (hm : m.extractLsb' start len = BitVec.allOnes len) :
    (w &&& m).extractLsb' start len = w.extractLsb' start len := by
  rw [BitVec.extractLsb'_and, hm, BitVec.and_allOnes]

/-- Two words that agree under a mask agree in every field that the mask keeps. -/
theorem field_eq_of_masked (h : v &&& m = w &&& m) (hm : m.extractLsb' start len = BitVec.allOnes len) :
    v.extractLsb' start len = w.extractLsb' start len := by
  rw [← extractLsb'_and_mask v hm, h, extractLsb'_and_mask w hm]

theorem fieldBank_eq_of_masked (h : v &&& m = w &&& m) (hm : fieldBank m = BitVec.allOnes 8) :
    fieldBank v = fieldBank w := field_eq_of_masked h hm

theorem fieldAddr_eq_of_masked (h : v &&& m = w &&& m) (hm : fieldAddr m = BitVec.allOnes 16) :
    fieldAddr v = fieldAddr w := field_eq_of_masked h hm

theorem fieldData_eq_of_masked (h : v &&& m = w &&& m) (hm : fieldData m = BitVec.allOnes 16) :
    fieldData v = fieldData w := field_eq_of_masked h hm

theorem fieldData8_eq_of_masked (h : v &&& m = w &&& m) (hm : fieldData8 m = BitVec.allOnes 8) :
    fieldData8 v = fieldData8 w := field_eq_of_masked h hm

theorem fieldWrap_eq_of_masked (h : v &&& m = w &&& m) (hm : fieldWrap m = true) : fieldWrap v = fieldWrap w := by
  have hbit := congrArg (BitVec.getLsbD · 43) h
  simp only [fieldWrap] at hm ⊢
  simpa only [BitVec.getLsbD_and, hm, Bool.and_true] using hbit

/-- A word that the mask of OP and RSV takes to m, a row's match, decodes to the row's command. -/
theorem decode_of_masked {f : CommandWord → Instr} (h : w &&& 0xF70000000000 = m) (hrsv : fieldRsv m = 0)
    (hrow : commandOf (fieldOp m) = some f) : decode w = .ok (f w) := by
  have hop : fieldOp (w &&& 0xF70000000000) = fieldOp w := extractLsb'_and_mask w rfl
  have hrsv' : fieldRsv (w &&& 0xF70000000000) = fieldRsv w := extractLsb'_and_mask w rfl
  rw [h] at hop hrsv'
  exact decode_of_row (hrsv' ▸ hrsv) (hop ▸ hrow)

/-- Two words with the OP of one row and the same RSV decode alike when the row makes the same command of both. -/
theorem decode_congr {f : CommandWord → Instr} (h : v &&& 0xF70000000000 = w &&& 0xF70000000000) {op : BitVec 4}
    (hw : w.toNat / 2 ^ 44 = op.toNat) (hrow : commandOf op = some f) (hf : f v = f w) : decode v = decode w := by
  have hop : fieldOp v = fieldOp w := field_eq_of_masked h rfl
  have hrsv : fieldRsv v = fieldRsv w := field_eq_of_masked h rfl
  obtain rfl : fieldOp w = op := BitVec.eq_of_toNat_eq ((fieldOp_toNat w).trans hw)
  by_cases hw0 : fieldRsv w = 0
  · rw [decode_of_row hw0 hrow, decode_of_row (hrsv.trans hw0) (hop ▸ hrow), hf]
  · rw [decode_eq_error_of_rsv_ne_zero hw0, decode_eq_error_of_rsv_ne_zero (hrsv ▸ hw0), hop, hrsv]

end Masks

/-! ## Fields of a laid-out word -/

theorem fieldWrap_eq (w : CommandWord) : fieldWrap w = (w.toNat / 2 ^ 43 % 2 == 1) := by
  rw [fieldWrap, BitVec.getLsbD, Nat.testBit_eq_decide_div_mod_eq]
  rfl

section Layout

variable (op : BitVec 4) (wrap : Bool) (bank : Byte) (addr data : Word)

@[simp] theorem fieldOp_commandWord : fieldOp (commandWord op wrap bank addr data) = op := by
  have hmask := masked_commandWord_toNat op wrap bank addr data
  rw [masked_toNat] at hmask
  apply BitVec.eq_of_toNat_eq
  rw [fieldOp_toNat]
  omega

@[simp] theorem fieldRsv_commandWord : fieldRsv (commandWord op wrap bank addr data) = 0 := by
  have hmask := masked_commandWord_toNat op wrap bank addr data
  rw [masked_toNat] at hmask
  apply BitVec.eq_of_toNat_eq
  rw [fieldRsv_toNat, show (0 : BitVec 3).toNat = 0 from rfl]
  omega

@[simp] theorem fieldWrap_commandWord : fieldWrap (commandWord op wrap bank addr data) = wrap := by
  have := bank.isLt
  have := addr.isLt
  have := data.isLt
  have hbit : (commandWord op wrap bank addr data).toNat / 2 ^ 43 % 2 = wrap.toNat := by
    have := wrap.toNat_lt
    rw [commandWord_toNat]
    omega
  rw [fieldWrap_eq, hbit]
  cases wrap <;> rfl

@[simp] theorem fieldBank_commandWord : fieldBank (commandWord op wrap bank addr data) = bank := by
  have := bank.isLt
  have := addr.isLt
  have := data.isLt
  rw [fieldBank_eq, commandWord_toNat]
  apply BitVec.eq_of_toNat_eq
  rw [BitVec.toNat_ofNat]
  omega

@[simp] theorem fieldAddr_commandWord : fieldAddr (commandWord op wrap bank addr data) = addr := by
  have := addr.isLt
  have := data.isLt
  rw [fieldAddr_eq, commandWord_toNat]
  apply BitVec.eq_of_toNat_eq
  rw [BitVec.toNat_ofNat]
  omega

@[simp] theorem fieldData_commandWord : fieldData (commandWord op wrap bank addr data) = data := by
  have := data.isLt
  rw [fieldData_eq, commandWord_toNat]
  apply BitVec.eq_of_toNat_eq
  rw [BitVec.toNat_ofNat]
  omega

@[simp] theorem fieldData8_commandWord (value : Byte) :
    fieldData8 (commandWord op wrap bank addr (value.setWidth 16)) = value := by
  have := value.isLt
  rw [fieldData8_eq, commandWord_toNat]
  apply BitVec.eq_of_toNat_eq
  rw [BitVec.toNat_ofNat, BitVec.toNat_setWidth]
  omega

/-- The decoder reads a laid-out word by the row of its OP. -/
theorem decode_commandWord : decode (commandWord op wrap bank addr data) =
    (commandOf op).elim (.error ⟨op, 0⟩) fun f => .ok (f (commandWord op wrap bank addr data)) := by
  rw [decode_of_rsv_eq_zero (fieldRsv_commandWord ..), fieldOp_commandWord, fieldRsv_commandWord]

end Layout

/-- Settles O5: each command's word is laid out with its row's OP, and the row reads back the operands. -/
theorem decodeInvertsEncode : Obligations.DecodeInvertsEncode := by
  intro i
  cases i <;> simp [encode, decode_commandWord, commandOf]

/-- Settles O6: under the mask the word has the row's OP and RSV 000, and the fields are those of the arithmetic. -/
theorem matchedWordsDecodeWithTheirFields : Obligations.MatchedWordsDecodeWithTheirFields := by
  intro w
  rw [← fieldBank_eq, ← fieldAddr_eq, ← fieldData_eq, ← fieldData8_eq, ← fieldWrap_eq]
  exact ⟨fun h => decode_of_masked h rfl rfl, fun h => decode_of_masked h rfl rfl,
    fun h => decode_of_masked h rfl rfl, fun h => decode_of_masked h rfl rfl, fun h => decode_of_masked h rfl rfl,
    fun h => decode_of_masked h rfl rfl, fun h => decode_of_masked h rfl rfl, fun h => decode_of_masked h rfl rfl,
    fun h => decode_of_masked h rfl rfl, fun h => decode_of_masked h rfl rfl⟩

/-- Settles O7: the words agree in OP and RSV, and in each field that the row of OP reads. -/
theorem unusedFieldsAreIgnored : Obligations.UnusedFieldsAreIgnored := by
  intro v w hmask
  refine ⟨fun hop h => ?lpeek, fun hop h => ?lpoke8, fun hop h => ?lpoke16, fun hop h => ?bpeek8,
    fun hop h => ?bpoke8, fun hop h => ?bpeek16, fun hop h => ?bpoke16, fun hop h => ?setpage, fun hop => ?load⟩
  case lpeek =>
    have haddr := fieldAddr_eq_of_masked h rfl
    rcases List.mem_pair.1 hop with hop | hop
    · exact decode_congr (op := 1) hmask hop rfl (congrArg Instr.lpeek8 haddr)
    · exact decode_congr (op := 3) hmask hop rfl (congrArg Instr.lpeek16 haddr)
  case lpoke8 =>
    exact decode_congr (op := 2) hmask hop rfl
      (congrArg₂ Instr.lpoke8 (fieldAddr_eq_of_masked h rfl) (fieldData8_eq_of_masked h rfl))
  case lpoke16 =>
    exact decode_congr (op := 4) hmask hop rfl
      (congrArg₂ Instr.lpoke16 (fieldAddr_eq_of_masked h rfl) (fieldData_eq_of_masked h rfl))
  case bpeek8 =>
    exact decode_congr (op := 5) hmask hop rfl
      (congrArg₂ Instr.bpeek8 (fieldBank_eq_of_masked h rfl) (fieldAddr_eq_of_masked h rfl))
  case bpoke8 =>
    exact decode_congr (op := 6) hmask hop rfl
      (by simp only [fieldBank_eq_of_masked h rfl, fieldAddr_eq_of_masked h rfl, fieldData8_eq_of_masked h rfl])
  case bpeek16 =>
    exact decode_congr (op := 7) hmask hop rfl
      (by simp only [fieldWrap_eq_of_masked h rfl, fieldBank_eq_of_masked h rfl, fieldAddr_eq_of_masked h rfl])
  case bpoke16 =>
    exact decode_congr (op := 8) hmask hop rfl
      (by simp only [fieldWrap_eq_of_masked h rfl, fieldBank_eq_of_masked h rfl, fieldAddr_eq_of_masked h rfl,
        fieldData_eq_of_masked h rfl])
  case setpage =>
    exact decode_congr (op := 9) hmask hop rfl (congrArg Instr.setpage (fieldData8_eq_of_masked h rfl))
  case load => exact decode_congr (op := 15) hmask hop rfl rfl

/-- Settles O9: the decoder runs on the six words. -/
theorem sampleWordsDecode : Obligations.SampleWordsDecode := ⟨rfl, rfl, rfl, rfl, rfl, rfl⟩

/-! ## Reserved words -/

/-- OP 0, OP 0xA to 0xE or RSV not 000, by arithmetic on the word (30_encoding.md R84). -/
def Reserved (w : CommandWord) : Prop :=
  w.toNat / 2 ^ 44 = 0 ∨ (10 ≤ w.toNat / 2 ^ 44 ∧ w.toNat / 2 ^ 44 ≤ 14) ∨ w.toNat / 2 ^ 40 % 8 ≠ 0

theorem reserved_iff (w : CommandWord) : Reserved w ↔ commandOf (fieldOp w) = none ∨ fieldRsv w ≠ 0 := by
  have hrsv : fieldRsv w ≠ 0 ↔ w.toNat / 2 ^ 40 % 8 ≠ 0 := by
    rw [← fieldRsv_toNat, ← BitVec.toNat_ne_iff_ne]
    rfl
  rw [Reserved, commandOf_eq_none_iff, fieldOp_toNat, hrsv, or_assoc]

theorem decode_eq_error_of_reserved {w : CommandWord} (h : Reserved w) :
    decode w = .error ⟨fieldOp w, fieldRsv w⟩ := by
  rcases (reserved_iff w).1 h with hrow | hrsv
  · exact decode_eq_error_of_no_row hrow
  · exact decode_eq_error_of_rsv_ne_zero hrsv

theorem exists_decode_eq_ok {w : CommandWord} (h : ¬ Reserved w) : ∃ i, decode w = .ok i := by
  rw [reserved_iff, not_or, not_not] at h
  obtain ⟨hrow, hrsv⟩ := h
  obtain ⟨f, hf⟩ := Option.ne_none_iff_exists'.1 hrow
  exact ⟨f w, decode_of_row hrsv hf⟩

end Sys2Proof

namespace Sys2Proof.Machine

theorem issueWord_of_decode_error {w : CommandWord} {e : ReservedEncoding} (h : decode w = .error e) (img : Image)
    (rest : List HostMove) (s : State) :
    issueWord w img rest s = .next ((s.accept rest img).refuse (.reservedEncoding e)) := by
  rw [issueWord, h]

/-- Settles O8: the step issues the word, the decoder rejects it, and the block refuses it. -/
theorem reservedWordsAreRefused : Obligations.ReservedWordsAreRefused := by
  intro w
  refine ⟨exists_decode_eq_ok, fun hw s img rest hs hp => ?_⟩
  have hstep := (step_of_command hs hp).trans
    (issueWord_of_decode_error (decode_eq_error_of_reserved hw) img rest s)
  exact ⟨_, hstep, rfl, rfl, by simp, rfl⟩

/-! ## The header of a loaded image -/

/-- A LOAD that leaves the block Loaded has built its record from the image. -/
theorem loadImage_of_exec_load {s t : State} {S : Record} (hb : s.block = .unloaded) (h : exec .load s = .next t)
    (ht : t.block = .loaded S) : loadImage s.image = .ok S := by
  simp only [exec, execLoad, hb] at h
  cases hl : loadImage s.image with
  | error e =>
    rw [hl] at h
    cases h
    cases hb.symm.trans ht
  | ok S' =>
    rw [hl] at h
    cases h
    cases ht
    rfl

/-- Both formats take the register record from the header. -/
theorem loadImage_ok_regs {img : Image} {S : Record} (h : loadImage img = .ok S) : S.regs = headerRegs img := by
  rcases loadImage_cases img with ⟨-, hl⟩ | ⟨-, hl⟩ | ⟨-, -, hl⟩ <;> cases hl.symm.trans h <;> rfl

/-- Settles O35: the loaded regs are the header's, whose 16-bit fields are their two bytes, the high one first. -/
theorem loadDecodesTheHeader : Obligations.LoadDecodesTheHeader := by
  intro s t S hb h ht
  rw [loadImage_ok_regs (loadImage_of_exec_load hb h ht)]
  simp only [headerRegs, Image.wordAt, joinBytes_eq_append]

/-! ## The answer of a command -/

/-- The four commands that answer with bank bytes. -/
def answersData : Instr → Bool
  | .lpeek8 _ | .lpeek16 _ | .bpeek8 _ _ | .bpeek16 _ _ _ => true
  | _ => false

theorem answersData_eq_false {i : Instr} (h8 : ∀ a, i ≠ .lpeek8 a) (h16 : ∀ a, i ≠ .lpeek16 a)
    (hb8 : ∀ b a, i ≠ .bpeek8 b a) (hb16 : ∀ b a w, i ≠ .bpeek16 b a w) : answersData i = false := by
  cases i with
  | lpeek8 a => exact absurd rfl (h8 a)
  | lpeek16 a => exact absurd rfl (h16 a)
  | bpeek8 b a => exact absurd rfl (hb8 b a)
  | bpeek16 b a w => exact absurd rfl (hb16 b a w)
  | _ => rfl

/-- Every command but LOAD runs in the frame, and where it is no read it completes with data 0. -/
theorem exists_runsAs_data_zero {i : Instr} (hi : i ≠ .load) :
    ∃ f, RunsAs i f ∧ (answersData i = false → ∀ S S' d, f S = .ok (S', d) → d = 0) := by
  cases i with
  | load => exact absurd rfl hi
  | lpeek8 addr => exact ⟨_, fun _ => rfl, nofun⟩
  | lpeek16 addr => exact ⟨_, fun _ => rfl, nofun⟩
  | bpeek8 bank addr => exact ⟨_, fun _ => rfl, nofun⟩
  | bpeek16 bank addr wrap => exact ⟨_, fun _ => rfl, nofun⟩
  | lpoke8 addr v =>
    refine ⟨_, fun _ => rfl, fun _ S S' d h => ?_⟩
    split at h <;> cases h
    rfl
  | lpoke16 addr v =>
    refine ⟨_, fun _ => rfl, fun _ S S' d h => ?_⟩
    split at h
    · cases h
    split at h
    · cases h
    split at h
    · cases h
    split at h <;> cases h
    rfl
  | bpoke8 bank addr v =>
    refine ⟨_, fun _ => rfl, fun _ S S' d h => ?_⟩
    split at h <;> cases h
    rfl
  | bpoke16 bank addr v wrap =>
    refine ⟨_, fun _ => rfl, fun _ S S' d h => ?_⟩
    dsimp only at h
    split at h
    · cases h
    split at h <;> cases h
    rfl
  | setpage v =>
    refine ⟨_, fun _ => rfl, fun _ S S' d h => ?_⟩
    split at h <;> cases h
    rfl

/-- Settles O44: a command ends in a fault or completes, and only a read completes with data. -/
theorem loadedBlockAnswersEveryCommand : Obligations.LoadedBlockAnswersEveryCommand := by
  intro i s S hb hi
  obtain ⟨f, hf, hdata⟩ := exists_runsAs_data_zero hi
  have hexec : exec i s = .next (s.finish S (f S)) := (hf s).trans (runLoaded_of_loaded hb)
  cases hr : f S with
  | error c =>
    rw [hr] at hexec
    exact ⟨_, _, hexec, rfl, .inr ⟨rfl, rfl, c, rfl, rfl⟩, fun _ _ _ _ => rfl⟩
  | ok r =>
    rw [hr] at hexec
    exact ⟨_, _, hexec, rfl, .inl ⟨rfl, rfl, r.1, rfl⟩, fun h8 h16 hb8 hb16 =>
      hdata (answersData_eq_false h8 h16 hb8 hb16) S r.1 r.2 hr⟩

end Sys2Proof.Machine
end

section
/-! PROOFS. The LOAD family (40_load.md): what LOAD answers by the length of its image, where each bank of the built
record comes from, and the bytes of the image that the record depends on. -/

namespace Sys2Proof.Machine

/-! ## What LOAD answers -/

section Answer

variable {s : State} {S : Record} {img : Image}

theorem exec_load_of_loaded (hb : s.block = .loaded S) : exec .load s = .next (s.refuse .loadWhenLoaded) := by
  simp only [exec, execLoad, hb]

theorem exec_load_of_ok (hb : s.block = .unloaded) (h : loadImage s.image = .ok S) :
    exec .load s = .next (s.complete S 0) := by
  simp only [exec, execLoad, hb, h]

theorem exec_load_of_error {e : DecodeError} (hb : s.block = .unloaded) (h : loadImage s.image = .error e) :
    exec .load s = .next (s.decodeFailed e) := by
  simp only [exec, execLoad, hb, h]

section Step

variable {w : CommandWord} {rest : List HostMove}
  (hb : s.block = .unloaded) (hp : s.pending = .command w img :: rest) (hw : decode w = .ok .load)

include hb hp hw

theorem step_load_of_ok (h : loadImage img = .ok S) : step s = .next ((s.accept rest img).complete S 0) :=
  (stepRunsTheDecodedCommand s w img rest .load (by simp [hb]) hp hw).trans (exec_load_of_ok hb h)

theorem step_load_of_error {e : DecodeError} (h : loadImage img = .error e) :
    step s = .next ((s.accept rest img).decodeFailed e) :=
  (stepRunsTheDecodedCommand s w img rest .load (by simp [hb]) hp hw).trans (exec_load_of_error hb h)

end Step

/-- The end of the last trailing bank (40_load.md R117, R118). -/
theorem largerLength_eq (img : Image) : largerLength img = 49183 + 16384 *
    (if (Image.byteAt img 49181).toNat % 8 = 2 ∨ (Image.byteAt img 49181).toNat % 8 = 5 then 6 else 5) :=
  congrArg (49183 + 16384 * ·) (restBanks_length (imageCtl img))

theorem trailingStart_le_largerLength (img : Image) : 49183 ≤ largerLength img := Nat.le_add_right _ _

theorem loadImage_of_smallerLength (h : img.length = 49179) : loadImage img = .ok (smallerRecord img) := by
  rcases loadImage_cases img with ⟨-, hl⟩ | ⟨hlen, -⟩ | ⟨hlen, -, -⟩
  · exact hl
  · omega
  · exact absurd h hlen

theorem loadImage_of_largerLength (h : largerLength img ≤ img.length) : loadImage img = .ok (largerRecord img) := by
  have := trailingStart_le_largerLength img
  rcases loadImage_cases img with ⟨hlen, -⟩ | ⟨-, hl⟩ | ⟨-, hlen, -⟩
  · omega
  · exact hl
  · exact absurd h (Nat.not_le.2 hlen)

theorem loadImage_of_truncated (h : img.length ≠ 49179) (h' : img.length < largerLength img) :
    loadImage img = .error .truncatedInput := by
  rcases loadImage_cases img with ⟨hlen, -⟩ | ⟨hlen, -⟩ | ⟨-, -, hl⟩
  · exact absurd hlen h
  · exact absurd h' (Nat.not_lt.2 hlen)
  · exact hl

end Answer

/-- Settles O38: in Loaded, LOAD is refused. -/
theorem loadWhenLoadedIsRefused : Obligations.LoadWhenLoadedIsRefused := by
  intro s S hb
  exact ⟨s.refuse .loadWhenLoaded, exec_load_of_loaded hb, rfl, rfl, by simp⟩

/-- Settles O34: each of the three ranges of lengths misses 49179 and lies below the end of the last trailing bank. -/
theorem loadOfTruncatedImage : Obligations.LoadOfTruncatedImage := by
  intro s hb k hlen
  have hneeded : largerLength s.image = 49183 + 16384 * (if k = 2 ∨ k = 5 then 6 else 5) := largerLength_eq s.image
  have herror : loadImage s.image = .error .truncatedInput := loadImage_of_truncated (by omega) (by omega)
  exact exec_load_of_error hb herror

/-- Settles O37: the first LOAD leaves the block Unloaded, and the second step takes the next move from there. -/
theorem loadMayBeRetriedAfterDecodeError : Obligations.LoadMayBeRetriedAfterDecodeError := by
  intro s w w' img img' rest hb hp hw hw' hlen hlen'
  have herror : loadImage img = .error .truncatedInput :=
    loadImage_of_truncated (by omega) (Nat.lt_of_lt_of_le (by omega) (trailingStart_le_largerLength img))
  have hfirst := step_load_of_error hb hp hw herror
  have hsecond := step_load_of_ok (s := (s.accept (.command w' img' :: rest) img).decodeFailed .truncatedInput)
    hb rfl hw' (loadImage_of_smallerLength hlen')
  have hrun := (run_of_step 1 hfirst).trans (run_of_step 0 hsecond)
  exact ⟨⟨_, hfirst, hb, rfl⟩, _, _, hrun, rfl, rfl, rfl, rfl⟩

/-! ## The banks of a Smaller image -/

/-- Bank b is chunk b + 1 of the image (40_load.md R114). -/
theorem bankByte_smallerRecord (img : Image) {b o : Nat} (hb : b < 3) (ho : o < 16384) :
    bankByte (smallerRecord img) b o = Image.byteAt img (27 + 16384 * b + o) := by
  simp only [bankByte, smallerRecord, Memory.read_fillBank _ _ _ _ _ ho]
  obtain rfl | rfl | rfl : b = 0 ∨ b = 1 ∨ b = 2 := by omega
  all_goals rfl

/-- Settles O32: an image of that length builds the Smaller record. -/
theorem loadOfSmallerImage : Obligations.LoadOfSmallerImage := by
  intro s hb hlen
  exact ⟨smallerRecord s.image, exec_load_of_ok hb (loadImage_of_smallerLength hlen), rfl, rfl, rfl,
    fun _ _ => bankByte_smallerRecord s.image⟩

/-! ## The banks of a Larger image -/

/-- The number of trailing banks before bank b, where k is ctl & 7 (40_load.md R117). -/
def trailingRank (k b : Nat) : Nat := ([0, 1, 3, 4, 6, 7].filter (fun c => c ≠ k ∧ c < b)).length

/-- Where bank b begins in a Larger image, where k is ctl & 7: chunk 3, 1 or 2, else the trailing block of its rank
(40_load.md R116, R118, R120). -/
def largerBankStart (k b : Nat) : Nat :=
  if b = k then 32795 else if b = 5 then 27 else if b = 2 then 16411 else 49183 + 16384 * trailingRank k b

section RestBanks

variable {ctl : Byte} {b : Nat}

theorem restBanks_nodup (ctl : Byte) : (restBanks ctl).Nodup := List.Nodup.filter _ (by decide)

theorem mem_restBanks (hb : b < 8) : b ∈ restBanks ctl ↔ b ≠ ctl.toNat % 8 ∧ b ≠ 5 ∧ b ≠ 2 := by
  have hcandidate : b ∈ [0, 1, 3, 4, 6, 7] ↔ b ≠ 5 ∧ b ≠ 2 := by
    simp only [List.mem_cons, List.not_mem_nil, or_false]
    omega
  rw [restBanks, List.mem_filter, hcandidate, pagingBank_toNat, decide_eq_true_eq, and_comm]

/-- rest is ascending, so a bank's place in it is the number of smaller banks there. -/
theorem idxOf_restBanks (h : b ∈ restBanks ctl) : (restBanks ctl).idxOf b = trailingRank (ctl.toNat % 8) b := by
  have hranks : ∀ k : BitVec 3, ∀ c ∈ [0, 1, 3, 4, 6, 7].filter (fun c => c ≠ k.toNat),
      ([0, 1, 3, 4, 6, 7].filter (fun c => c ≠ k.toNat)).idxOf c = trailingRank k.toNat c := by decide
  rw [← pagingBank_toNat]
  exact hranks (pagingBank ctl) b h

theorem trailingRank_lt (h : b ∈ restBanks ctl) : trailingRank (ctl.toNat % 8) b < (restBanks ctl).length := by
  rw [← idxOf_restBanks h]
  exact List.idxOf_lt_length_of_mem h

end RestBanks

/-- Every bank of a Larger record is the 16 KiB block of the image that begins at its start. -/
theorem read_largerBanks (img : Image) {b o : Nat} (hb : b < 8) (ho : o < 16384) :
    Memory.read (largerBanks img) (b * 16384 + o) =
      Image.byteAt img (o + largerBankStart ((imageCtl img).toNat % 8) b) := by
  have hrest := mem_restBanks (ctl := imageCtl img) hb
  simp only [largerBanks, read_fillRest _ _ (restBanks_nodup _) _ _ _ ho, Memory.read_fillBank _ _ _ _ _ ho,
    pagingBank_toNat]
  rw [largerBankStart, Nat.add_comm o]
  by_cases hmem : b ∈ restBanks (imageCtl img)
  · obtain ⟨hk, h5, h2⟩ := hrest.1 hmem
    rw [if_pos hmem, if_neg hk, if_neg h5, if_neg h2, idxOf_restBanks hmem]
    rfl
  · rw [if_neg hmem]
    by_cases hk : b = (imageCtl img).toNat % 8
    · rw [if_pos hk, if_pos hk]
      rfl
    · rw [if_neg hk, if_neg hk]
      obtain rfl | rfl : b = 5 ∨ b = 2 := by
        by_contra hne
        exact hmem (hrest.2 ⟨hk, by omega, by omega⟩)
      · rfl
      · rfl

/-- Settles O33: an image of that length builds the Larger record. -/
theorem loadOfLargerImage : Obligations.LoadOfLargerImage := by
  intro s hb ctl k n hlen
  have hload : loadImage s.image = .ok (largerRecord s.image) :=
    loadImage_of_largerLength ((largerLength_eq s.image).trans_le hlen)
  have hslot : pagingBank ctl = BitVec.ofNat 3 k := BitVec.eq_of_toNat_eq (by simp [pagingBank_toNat, k])
  refine ⟨largerRecord s.image, exec_load_of_ok hb hload, rfl, ?_, ?_, fun _ _ => read_largerBanks s.image⟩
  · rw [← hslot]
    rfl
  · rw [← joinBytes_eq_append]
    rfl

/-! ## The bytes that a Larger image needs -/

/-- A bank's block ends at or before the end of the last trailing bank. -/
theorem largerBankStart_add_le (img : Image) {b : Nat} (hb : b < 8) :
    largerBankStart ((imageCtl img).toNat % 8) b + 16384 ≤ largerLength img := by
  have hlen : largerLength img = 49183 + 16384 * (restBanks (imageCtl img)).length := rfl
  rw [largerBankStart, hlen]
  split_ifs with hk h5 h2
  · omega
  · omega
  · omega
  · have := trailingRank_lt ((mem_restBanks hb).2 ⟨hk, h5, h2⟩)
    omega

section Agree

variable {img img' : Image}

theorem headerRegs_congr (h : ∀ o, o < 27 → Image.byteAt img o = Image.byteAt img' o) :
    headerRegs img = headerRegs img' := by
  simp (disch := omega) only [headerRegs, Image.wordAt, h]

variable (h : ∀ o, o < largerLength img → Image.byteAt img o = Image.byteAt img' o)

include h

theorem byteAt_congr_of_lt_trailingStart {o : Nat} (ho : o < 49183) : Image.byteAt img o = Image.byteAt img' o :=
  h o (Nat.lt_of_lt_of_le ho (trailingStart_le_largerLength img))

theorem imageCtl_congr : imageCtl img = imageCtl img' := byteAt_congr_of_lt_trailingStart h (by decide)

theorem largerLength_congr : largerLength img = largerLength img' := by
  rw [largerLength, largerLength, imageCtl_congr h]

/-- Both memories hold the same byte under every key of the 8 banks, and none under any other key. -/
theorem largerBanks_congr : largerBanks img = largerBanks img' := by
  refine Memory.ext_of_read (largerBanks_wf img) (largerBanks_wf img') fun a => ?_
  rcases Nat.lt_or_ge a (8 * 16384) with ha | ha
  · have hb : a / 16384 < 8 := by omega
    have ho : a % 16384 < 16384 := by omega
    have hend := largerBankStart_add_le img hb
    rw [← Nat.div_add_mod' a 16384, read_largerBanks img hb ho, read_largerBanks img' hb ho, ← imageCtl_congr h]
    exact h _ (by omega)
  · have absent : ∀ j : Image, Memory.read (largerBanks j) a = 0 := fun j =>
      Memory.read_of_absent fun c hc => by have := largerBanks_inside j c hc; omega
    rw [absent, absent]

theorem largerRecord_congr : largerRecord img = largerRecord img' := by
  have hext : ∀ o, o < 49183 → Image.byteAt img o = Image.byteAt img' o :=
    fun _ => byteAt_congr_of_lt_trailingStart h
  have hheader : headerRegs img = headerRegs img' := headerRegs_congr fun o ho => hext o (by omega)
  simp only [largerRecord, Image.wordAt, hheader, imageCtl_congr h, largerBanks_congr h,
    hext Config.smallerLength (by decide), hext (Config.smallerLength + 1) (by decide),
    hext (Config.smallerLength + 3) (by decide)]

end Agree

/-- Settles O36: the Larger record depends on the bytes below the end of the last trailing bank alone. -/
theorem loadIgnoresTrailingBytes : Obligations.LoadIgnoresTrailingBytes := by
  intro s img img' hb k needed hlen hlen' hagree
  have hneeded : largerLength img = needed := largerLength_eq img
  rw [← hneeded] at hlen hlen' hagree
  have hload : loadImage img = .ok (largerRecord img) := loadImage_of_largerLength hlen
  have hload' : loadImage img' = .ok (largerRecord img) := by
    rw [largerRecord_congr hagree]
    exact loadImage_of_largerLength ((largerLength_congr hagree).symm.trans_le hlen')
  exact ⟨largerRecord img, exec_load_of_ok hb hload, exec_load_of_ok hb hload'⟩

end Sys2Proof.Machine
end

section
/-! PROOFS. The logical family (41_logical_access.md): the rules of the four logical commands, the word a 16-bit write
stores in two places, and the writes that change nothing when repeated. -/

namespace Sys2Proof.Machine

/-! ## Physical addresses of mapped bytes -/

section Map

variable {S : Record} {addr : Word}

theorem physical_mapPlace (S : Record) (addr : Word) :
    physical (mapPlace S addr) = mapBank S addr * 0x4000 + addr.toNat % 0x4000 := by
  rw [physical, mapPlace, offsetOf_toNat]

/-- Below the last address the next one is a plain sum (41_logical_access.md R144, R145). -/
theorem succ_toNat (h : addr.toNat < 0xFFFF) : (addr + 1).toNat = addr.toNat + 1 := by
  rw [BitVec.toNat_add, show (1 : Word).toNat = 1 from rfl]
  omega

theorem ne_last_of_lt (h : addr.toNat < 0xFFFF) : addr ≠ 0xFFFF := by
  rintro rfl
  exact absurd h (by decide)

/-- An address and the next one are mapped to different bytes, since their offsets differ. -/
theorem physical_mapPlace_ne_succ (h : addr.toNat < 0xFFFF) :
    physical (mapPlace S addr) ≠ physical (mapPlace S (addr + 1)) := by
  rw [physical_mapPlace, physical_mapPlace, succ_toNat h]
  omega

end Map

theorem physical_ne_secondPlace (p : Place) (wrap : Bool) : physical p ≠ physical (secondPlace p wrap) := by
  rw [(physical_secondPlace p wrap).2, physical, Config.bankSize]
  have := p.off.isLt
  split_ifs <;> omega

/-! ## A byte, and a word in two places -/

/-- To store the byte that is already there changes nothing. -/
theorem Memory.write_of_read_eq {m : Memory} (hm : Memory.wf m) {a : Nat} {v : Byte} (h : Memory.read m a = v) :
    Memory.write m a v = m := by
  refine Memory.ext_of_read (Memory.write_wf hm a v) hm fun b => ?_
  rw [Memory.read_write hm]
  split
  · rw [‹b = a›, h]
  · rfl

/-- lo goes to p and hi to q (41_logical_access.md R145, 42_bank_access.md R165). -/
def storeWord (S : Record) (p q : Place) (v : Word) : Record :=
  writePlace (writePlace S p (loByte v)) q (hiByte v)

section Store

variable {S : Record} {p q : Place}

theorem writePlace_wf (h : Memory.wf S.bank) (p : Place) (v : Byte) : Memory.wf (writePlace S p v).bank :=
  Memory.write_wf h _ v

theorem storeWord_wf (h : Memory.wf S.bank) (p q : Place) (v : Word) : Memory.wf (storeWord S p q v).bank :=
  writePlace_wf (writePlace_wf h p _) q _

theorem writePlace_of_readPlace_eq (h : Memory.wf S.bank) {v : Byte} (hv : readPlace S p = v) :
    writePlace S p v = S := by
  rw [writePlace, Memory.write_of_read_eq h hv]

theorem writePlace_again (h : Memory.wf S.bank) (p : Place) (v : Byte) :
    writePlace (writePlace S p v) p v = writePlace S p v :=
  writePlace_of_readPlace_eq (writePlace_wf h p v) (readPlace_writePlace_same h p v)

theorem readPlace_storeWord_lo (h : Memory.wf S.bank) (hpq : physical p ≠ physical q) (v : Word) :
    readPlace (storeWord S p q v) p = loByte v := by
  rw [storeWord, readPlace_writePlace (writePlace_wf h p _), if_neg hpq, readPlace_writePlace_same h]

theorem readPlace_storeWord_hi (h : Memory.wf S.bank) (p q : Place) (v : Word) :
    readPlace (storeWord S p q v) q = hiByte v :=
  readPlace_writePlace_same (writePlace_wf h p _) q _

/-- The two bytes of a stored word and no other are changed. -/
theorem read_storeWord (h : Memory.wf S.bank) (hpq : physical p ≠ physical q) (v : Word) (a : Nat) :
    Memory.read (storeWord S p q v).bank a =
      if a = physical p then loByte v else if a = physical q then hiByte v else Memory.read S.bank a := by
  rw [storeWord, writePlace_bank, Memory.read_write (writePlace_wf h p _), writePlace_bank, Memory.read_write h]
  by_cases hp : a = physical p
  · rw [if_neg (hp.trans_ne hpq), if_pos hp, if_pos hp]
  · rw [if_neg hp, if_neg hp]

theorem storeWord_again (h : Memory.wf S.bank) (hpq : physical p ≠ physical q) (v : Word) :
    storeWord (storeWord S p q v) p q v = storeWord S p q v := by
  have hwf := storeWord_wf h p q v
  have hlo : writePlace (storeWord S p q v) p (loByte v) = storeWord S p q v :=
    writePlace_of_readPlace_eq hwf (readPlace_storeWord_lo h hpq v)
  have hhi : writePlace (storeWord S p q v) q (hiByte v) = storeWord S p q v :=
    writePlace_of_readPlace_eq hwf (readPlace_storeWord_hi h p q v)
  exact (congrArg (writePlace · q (hiByte v)) hlo).trans hhi

theorem setPaging_again (S : Record) (v : Byte) : setPaging (setPaging S v) v = setPaging S v := by
  simp [setPaging, Function.comp_def]

end Store

/-! ## The rules of the logical commands in Loaded -/

section LogicalCommands

variable {s : State} {S : Record} {addr : Word}

/-- A command that completes on the record it found changes the response alone. -/
theorem complete_of_loaded (hb : s.block = .loaded S) (data : Word) :
    s.complete S data = { s with response := some (okResponse data) } := by
  rw [State.complete, ← hb]

theorem exec_lpoke8_of_unmapped (hb : s.block = .loaded S) (h : addr.toNat < 0x4000) (v : Byte) :
    exec (.lpoke8 addr v) s = .next (s.takeFault S .addressOutOfRange) := by
  rw [exec, execLpoke8, runLoaded_of_loaded hb, memWrite_of_unmapped S v h]
  rfl

theorem exec_lpeek16_of_lt (hb : s.block = .loaded S) (h : addr.toNat < 0xFFFF) :
    exec (.lpeek16 addr) s = .next (s.complete S (joinBytes (mapByte S addr) (mapByte S (addr + 1)))) := by
  rw [exec, execLpeek16, runLoaded_of_loaded hb, if_neg (ne_last_of_lt h), memRead_eq_mapByte, memRead_eq_mapByte]
  rfl

theorem exec_lpeek16_of_last (hb : s.block = .loaded S) (h : addr.toNat = 0xFFFF) :
    exec (.lpeek16 addr) s = .next (s.takeFault S .addressOutOfRange) := by
  have heq : addr = 0xFFFF := BitVec.eq_of_toNat_eq h
  rw [exec, execLpeek16, runLoaded_of_loaded hb, if_pos heq]
  rfl

/-- Both bytes of a word at addr have a place in the address map (41_logical_access.md R145). -/
def WordMapped (addr : Word) : Prop := 0x4000 ≤ addr.toNat ∧ addr.toNat < 0xFFFF

theorem WordMapped.succ (h : WordMapped addr) : 0x4000 ≤ (addr + 1).toNat := by
  rw [succ_toNat h.2]
  exact Nat.le_succ_of_le h.1

/-- The record after v is stored at addr and addr + 1, each mapped on its own (41_logical_access.md R145). -/
def pokeWord (S : Record) (addr v : Word) : Record := storeWord S (mapPlace S addr) (mapPlace S (addr + 1)) v

theorem mapByte_pokeWord_lo (hwf : Memory.wf S.bank) (h : WordMapped addr) (v : Word) :
    mapByte (pokeWord S addr v) addr = loByte v :=
  (mapByte_of_mapped h.1).trans (readPlace_storeWord_lo hwf (physical_mapPlace_ne_succ h.2) v)

theorem mapByte_pokeWord_hi (hwf : Memory.wf S.bank) (h : WordMapped addr) (v : Word) :
    mapByte (pokeWord S addr v) (addr + 1) = hiByte v :=
  (mapByte_of_mapped h.succ).trans (readPlace_storeWord_hi hwf _ _ v)

theorem pokeWord_again (hwf : Memory.wf S.bank) (h : WordMapped addr) (v : Word) :
    pokeWord (pokeWord S addr v) addr v = pokeWord S addr v :=
  storeWord_again hwf (physical_mapPlace_ne_succ h.2) v

theorem exec_lpoke16_of_mapped (hb : s.block = .loaded S) (h : WordMapped addr) (v : Word) :
    exec (.lpoke16 addr v) s = .next (s.complete (pokeWord S addr v) 0) := by
  have hram : ¬ (addr < Config.ramBase ∨ addr + 1 < Config.ramBase) := by
    rw [not_or, BitVec.lt_def, BitVec.lt_def]
    exact ⟨Nat.not_lt.2 h.1, Nat.not_lt.2 h.succ⟩
  simp only [exec, execLpoke16, runLoaded_of_loaded hb, if_neg (ne_last_of_lt h.2), if_neg hram,
    memWrite_of_mapped _ _ h.1, memWrite_of_mapped _ _ h.succ]
  rfl

theorem exec_lpoke16_of_not_mapped (hb : s.block = .loaded S) (h : ¬ WordMapped addr) (v : Word) :
    exec (.lpoke16 addr v) s = .next (s.takeFault S .addressOutOfRange) := by
  rw [exec, execLpoke16, runLoaded_of_loaded hb]
  by_cases hlast : addr = 0xFFFF
  · rw [if_pos hlast]
    rfl
  · have hlow : addr < Config.ramBase := by
      have hlast' : addr.toNat ≠ 0xFFFF := fun hc => hlast (BitVec.eq_of_toNat_eq hc)
      have := addr.isLt
      rw [BitVec.lt_def, show Config.ramBase.toNat = 0x4000 from rfl]
      rw [WordMapped] at h
      omega
    rw [if_neg hlast, if_pos (.inl hlow)]
    rfl

end LogicalCommands

/-- Settles O14: a read leaves the record it found. -/
theorem lpeek8ReturnsMappedByte : Obligations.Lpeek8ReturnsMappedByte := by
  intro s S addr hb
  rw [exec_lpeek8_of_loaded hb, complete_of_loaded hb]
  rfl

/-- Settles O15: the write goes to the place that the address is mapped to. -/
theorem lpoke8WritesMappedByte : Obligations.Lpoke8WritesMappedByte := by
  intro s S addr v hb hwf
  refine ⟨fun haddr => ⟨_, exec_lpoke8_of_mapped hb haddr v, fun a => ?_⟩,
    fun haddr => exec_lpoke8_of_unmapped hb haddr v⟩
  rw [← physical_mapPlace]
  exact Memory.read_write hwf _ _ _

/-- Settles O16: below the last address both bytes are read by the map. -/
theorem lpeek16JoinsTwoMappedBytes : Obligations.Lpeek16JoinsTwoMappedBytes := by
  intro s S addr hb
  refine ⟨fun haddr => ?_, exec_lpeek16_of_last hb⟩
  rw [exec_lpeek16_of_lt hb haddr, complete_of_loaded hb, joinBytes_eq_append]
  rfl

/-- Settles O17: the two places that the bytes are mapped to differ, so that each keeps its own byte. -/
theorem lpoke16WritesTwoMappedBytes : Obligations.Lpoke16WritesTwoMappedBytes := by
  intro s S addr v hb hwf
  refine ⟨fun hlo hhi => ⟨_, exec_lpoke16_of_mapped hb ⟨hlo, hhi⟩ v, fun a => ?_⟩,
    fun haddr => exec_lpoke16_of_not_mapped hb (by rw [WordMapped]; omega) v⟩
  rw [← physical_mapPlace, ← succ_toNat hhi, ← physical_mapPlace, ← loByte_eq, ← hiByte_eq]
  exact read_storeWord hwf (physical_mapPlace_ne_succ hhi) v a

/-- Settles O18: a write leaves the map, so the read finds the places that were written. -/
theorem logicalWriteThenReadReturnsIt : Obligations.LogicalWriteThenReadReturnsIt := by
  intro s S hb hwf
  constructor
  · intro addr v haddr
    refine ⟨_, _, exec_lpoke8_of_mapped hb haddr v, exec_lpeek8_of_loaded rfl addr, ?_⟩
    rw [mapByte_writePlace_mapPlace hwf haddr]
    rfl
  · intro addr v hlo hhi
    have haddr : WordMapped addr := ⟨hlo, hhi⟩
    refine ⟨_, _, exec_lpoke16_of_mapped hb haddr v, exec_lpeek16_of_lt rfl hhi, ?_⟩
    rw [mapByte_pokeWord_lo hwf haddr, mapByte_pokeWord_hi hwf haddr, joinBytes_lo_hi]
    rfl

/-! ## Commands that change nothing when repeated -/

section Again

variable {s t : State} {S S' : Record} {i : Instr}

/-- In Loaded, command i turns record S into W S with data 0 where the configuration and its operands allow it, and
faults elsewhere. -/
structure StoresAs (i : Instr) (allowed : Format → Prop) (W : Record → Record) : Prop where
  complete : ∀ {s : State} {S : Record}, s.block = .loaded S → allowed S.fmt →
    exec i s = .next (s.complete (W S) 0)
  fault : ∀ {s : State} {S : Record}, s.block = .loaded S → ¬ allowed S.fmt →
    ∃ c, exec i s = .next (s.takeFault S c)
  fmt : ∀ S, (W S).fmt = S.fmt

theorem lpoke8_storesAs (addr : Word) (v : Byte) : StoresAs (.lpoke8 addr v) (fun _ => 0x4000 ≤ addr.toNat)
    fun S => writePlace S (mapPlace S addr) v where
  complete hb h := exec_lpoke8_of_mapped hb h v
  fault hb h := ⟨_, exec_lpoke8_of_unmapped hb (Nat.not_le.1 h) v⟩
  fmt _ := rfl

theorem lpoke16_storesAs (addr v : Word) : StoresAs (.lpoke16 addr v) (fun _ => WordMapped addr)
    (pokeWord · addr v) where
  complete hb h := exec_lpoke16_of_mapped hb h v
  fault hb h := ⟨_, exec_lpoke16_of_not_mapped hb h v⟩
  fmt _ := rfl

theorem bpoke8_storesAs (bank : Byte) (addr : Word) (v : Byte) :
    StoresAs (.bpoke8 bank addr v) (fun fmt => bank.toNat < bankCount fmt)
      fun S => writePlace S (bankOperand bank addr) v where
  complete hb h := exec_bpoke8_of_lt hb h addr v
  fault {s S} hb h := by
    rw [exec, execBpoke8, runLoaded_of_loaded hb, bankWrite_error v (Nat.not_lt.1 h)]
    exact ⟨_, rfl⟩
  fmt _ := rfl

theorem bpoke16_storesAs (bank : Byte) (addr v : Word) (wrap : Bool) :
    StoresAs (.bpoke16 bank addr v wrap)
      (fun fmt => bank.toNat < bankCount fmt ∧ (secondPlace (bankOperand bank addr) wrap).bank < bankCount fmt)
      fun S => storeWord S (bankOperand bank addr) (secondPlace (bankOperand bank addr) wrap) v where
  complete {s S} hb h := by
    have hfirst : bankCheck S (bankOperand bank addr).bank = .ok () := bankCheck_ok h.1
    simp only [exec, execBpoke16, runLoaded_of_loaded hb, hfirst, bankCheck_ok h.2]
    rfl
  fault {s S} hb h := by
    simp only [exec, execBpoke16, runLoaded_of_loaded hb]
    rcases bankCheck_cases S (bankOperand bank addr).bank with ⟨hlt, hc⟩ | ⟨-, hc⟩
    · have hc' : bankCheck S (secondPlace (bankOperand bank addr) wrap).bank = .error .bankOutOfRange :=
        bankCheck_error (Nat.not_lt.1 fun hlt' => h ⟨hlt, hlt'⟩)
      simp only [hc, hc']
      exact ⟨_, rfl⟩
    · simp only [hc]
      exact ⟨_, rfl⟩
  fmt _ := rfl

theorem setpage_storesAs (v : Byte) : StoresAs (.setpage v) (· = .larger) (setPaging · v) where
  complete {s S} hb h := by
    simp only [exec, execSetpage, runLoaded_of_loaded hb, h]
    rfl
  fault {s S} hb h := by
    have hsmaller : S.fmt = .smaller := by
      cases hf : S.fmt with
      | smaller => rfl
      | larger => exact absurd hf h
    simp only [exec, execSetpage, runLoaded_of_loaded hb, hsmaller]
    exact ⟨_, rfl⟩
  fmt _ := rfl

/-- A command that completed completes again in the state it left, and leaves that state where W is idempotent on
the record. -/
theorem StoresAs.exec_again {allowed : Format → Prop} {W : Record → Record} (hi : StoresAs i allowed W)
    (hW : allowed S.fmt → W (W S) = W S) (hb : s.block = .loaded S) (h : exec i s = .next t)
    (ht : t.block = .loaded S') :
    exec i t = .next t := by
  by_cases hok : allowed S.fmt
  · rw [hi.complete hb hok] at h
    cases h
    have hok' : allowed (W S).fmt := (hi.fmt S).symm ▸ hok
    rw [hi.complete (State.complete_block s (W S) 0) hok', hW hok]
    rfl
  · obtain ⟨c, hc⟩ := hi.fault hb hok
    rw [hc] at h
    cases h
    cases ht

end Again

/-- Settles O29: to store again what was just stored, or to set the same page again, changes nothing. -/
theorem writesAreIdempotent : Obligations.WritesAreIdempotent := by
  intro s t S S' i hb hwf hi h ht
  cases i with
  | lpoke8 addr v => exact (lpoke8_storesAs addr v).exec_again (fun _ => writePlace_again hwf _ v) hb h ht
  | lpoke16 addr v => exact (lpoke16_storesAs addr v).exec_again (fun haddr => pokeWord_again hwf haddr v) hb h ht
  | bpoke8 bank addr v => exact (bpoke8_storesAs bank addr v).exec_again (fun _ => writePlace_again hwf _ v) hb h ht
  | bpoke16 bank addr v wrap =>
    exact (bpoke16_storesAs bank addr v wrap).exec_again
      (fun _ => storeWord_again hwf (physical_ne_secondPlace _ wrap) v) hb h ht
  | setpage v => exact (setpage_storesAs v).exec_again (fun _ => setPaging_again S v) hb h ht
  | lpeek8 | lpeek16 | bpeek8 | bpeek16 | load => exact hi.elim

end Sys2Proof.Machine
end

section
/-! PROOFS. The bank-relative family (42_bank_access.md): where a bank-relative access lands, the one rule of the four
commands, and what follows from it. -/

namespace Sys2Proof.Machine

/-! ## The places of a bank-relative access -/

section Places

variable {S : Record} {p : Place} {fmt : Format} {bank : Byte} {addr : Word} {wrap : Bool}

theorem physical_bankOperand (bank : Byte) (addr : Word) :
    physical (bankOperand bank addr) = bank.toNat * 0x4000 + addr.toNat % 0x4000 := by
  rw [physical, bankOperand, offsetOf_toNat]

theorem readPlace_bankOperand (S : Record) (bank : Byte) (addr : Word) :
    readPlace S (bankOperand bank addr) = bankByte S bank.toNat (addr.toNat % 0x4000) := by
  rw [readPlace_eq, bankOperand, offsetOf_toNat]

/-- The byte at Second (42_bank_access.md R163). -/
theorem readPlace_secondPlace (S : Record) (p : Place) (wrap : Bool) :
    readPlace S (secondPlace p wrap) =
      if p.off.toNat ≠ 0x3FFF then bankByte S p.bank (p.off.toNat + 1)
      else if wrap then bankByte S p.bank 0 else bankByte S (p.bank + 1) 0 := by
  rw [readPlace, (physical_secondPlace p wrap).2]
  split_ifs <;> simp only [bankByte, Nat.add_assoc, Nat.add_zero]

/-- Both bytes of the 16-bit access at p are in existing banks (42_bank_access.md R164, R165). -/
def WordInBanks (fmt : Format) (p : Place) (wrap : Bool) : Prop :=
  p.bank < bankCount fmt ∧ (secondPlace p wrap).bank < bankCount fmt

/-- Beside a missing first bank, only a step over the end of the last bank leaves the banks. -/
theorem wordInBanks_iff : WordInBanks fmt (bankOperand bank addr) wrap ↔
    ¬ (bankCount fmt ≤ bank.toNat ∨
      (addr.toNat % 0x4000 = 0x3FFF ∧ wrap = false ∧ bank.toNat + 1 = bankCount fmt)) := by
  rw [WordInBanks, (physical_secondPlace _ wrap).1, bankOperand, offsetOf_toNat]
  split_ifs with h
  · obtain ⟨ho, hw⟩ := h
    simp only [ho, hw, true_and]
    omega
  · simp only [← and_assoc, h, false_and, or_false, Nat.not_le, and_self]

theorem bankChecks_of_not_wordInBanks (h : ¬ WordInBanks S.fmt p wrap) :
    bankCheck S p.bank = .error .bankOutOfRange ∨
      (bankCheck S p.bank = .ok () ∧ bankCheck S (secondPlace p wrap).bank = .error .bankOutOfRange) := by
  rcases bankCheck_cases S p.bank with ⟨hlt, hok⟩ | ⟨-, herror⟩
  · exact .inr ⟨hok, bankCheck_error (Nat.not_lt.1 fun hlt' => h ⟨hlt, hlt'⟩)⟩
  · exact .inl herror

end Places

/-! ## The rule of a bank-relative command in Loaded -/

/-- S with another page table and another extension, pcr included (10_state.md R25, R29). -/
def Record.withPaging (S : Record) (pt' : PageTable) (ext' : Option Extension) : Record :=
  { S with pt := pt', ext := ext' }

/-- In Loaded, command i turns record S into W S and answers d S where the configuration has the banks it names, and
takes the fault BankOutOfRange elsewhere; W and d do not depend on the paging state, and W keeps it. -/
structure BankCommand (i : Instr) (allowed : Format → Prop) (W : Record → Record) (d : Record → Word) : Prop where
  complete : ∀ {s : State} {S : Record}, s.block = .loaded S → allowed S.fmt →
    exec i s = .next (s.complete (W S) (d S))
  fault : ∀ {s : State} {S : Record}, s.block = .loaded S → ¬ allowed S.fmt →
    exec i s = .next (s.takeFault S .bankOutOfRange)
  record_withPaging : ∀ S pt' ext', W (S.withPaging pt' ext') = (W S).withPaging pt' ext'
  data_withPaging : ∀ S pt' ext', d (S.withPaging pt' ext') = d S

theorem bpeek8_bankCommand (bank : Byte) (addr : Word) :
    BankCommand (.bpeek8 bank addr) (fun fmt => bank.toNat < bankCount fmt) id
      fun S => zext16 (readPlace S (bankOperand bank addr)) where
  complete hb h := exec_bpeek8_of_lt hb h addr
  fault hb h := by
    rw [exec, execBpeek8, runLoaded_of_loaded hb, bankRead_error (Nat.not_lt.1 h)]
    rfl
  record_withPaging _ _ _ := rfl
  data_withPaging _ _ _ := rfl

theorem bpoke8_bankCommand (bank : Byte) (addr : Word) (v : Byte) :
    BankCommand (.bpoke8 bank addr v) (fun fmt => bank.toNat < bankCount fmt)
      (writePlace · (bankOperand bank addr) v) fun _ => 0 where
  complete hb h := exec_bpoke8_of_lt hb h addr v
  fault hb h := by
    rw [exec, execBpoke8, runLoaded_of_loaded hb, bankWrite_error v (Nat.not_lt.1 h)]
    rfl
  record_withPaging _ _ _ := rfl
  data_withPaging _ _ _ := rfl

theorem bpeek16_bankCommand (bank : Byte) (addr : Word) (wrap : Bool) :
    BankCommand (.bpeek16 bank addr wrap) (WordInBanks · (bankOperand bank addr) wrap) id
      fun S => joinBytes (readPlace S (bankOperand bank addr))
        (readPlace S (secondPlace (bankOperand bank addr) wrap)) where
  complete hb h := by
    simp only [exec, execBpeek16, runLoaded_of_loaded hb, bankCheck_ok h.1, bankCheck_ok h.2]
    rfl
  fault hb h := by
    rcases bankChecks_of_not_wordInBanks h with hfirst | ⟨hfirst, hsecond⟩
    · simp only [exec, execBpeek16, runLoaded_of_loaded hb, hfirst, finish_error]
    · simp only [exec, execBpeek16, runLoaded_of_loaded hb, hfirst, hsecond, finish_error]
  record_withPaging _ _ _ := rfl
  data_withPaging _ _ _ := rfl

theorem bpoke16_bankCommand (bank : Byte) (addr v : Word) (wrap : Bool) :
    BankCommand (.bpoke16 bank addr v wrap) (WordInBanks · (bankOperand bank addr) wrap)
      (fun S => storeWord S (bankOperand bank addr) (secondPlace (bankOperand bank addr) wrap) v) fun _ => 0 where
  complete hb h := (bpoke16_storesAs bank addr v wrap).complete hb h
  fault hb h := by
    rcases bankChecks_of_not_wordInBanks h with hfirst | ⟨hfirst, hsecond⟩
    · simp only [exec, execBpoke16, runLoaded_of_loaded hb, hfirst, finish_error]
    · simp only [exec, execBpoke16, runLoaded_of_loaded hb, hfirst, hsecond, finish_error]
  record_withPaging _ _ _ := rfl
  data_withPaging _ _ _ := rfl

section Consequences

variable {i : Instr} {allowed : Format → Prop} {W : Record → Record} {d : Record → Word}

/-- A run that leaves the block Loaded is the completing one. -/
theorem BankCommand.of_completed {s t : State} {S S' : Record} (hi : BankCommand i allowed W d)
    (hb : s.block = .loaded S) (h : exec i s = .next t) (ht : t.block = .loaded S') :
    allowed S.fmt ∧ t = s.complete (W S) (d S) := by
  by_cases hok : allowed S.fmt
  · cases (hi.complete hb hok).symm.trans h
    exact ⟨hok, rfl⟩
  · cases (hi.fault hb hok).symm.trans h
    cases ht

/-- Writing back the paging state that S already has shows that W leaves it as it is. -/
theorem BankCommand.keeps_paging (hi : BankCommand i allowed W d) (S : Record) :
    (W S).pt = S.pt ∧ (W S).ext = S.ext := by
  have h : W S = (W S).withPaging S.pt S.ext := hi.record_withPaging S S.pt S.ext
  exact ⟨congrArg (·.pt) h, congrArg (·.ext) h⟩

/-- Two records that differ in the paging state alone are answered alike and differ in it alone afterwards. -/
theorem BankCommand.ignores_paging (hi : BankCommand i allowed W d) {s : State} {S : Record}
    (hb : s.block = .loaded S) (pt' : PageTable) (ext' : Option Extension) :
    ∃ t t' : State, ∃ R : Record,
      exec i s = .next t ∧ exec i { s with block := .loaded (S.withPaging pt' ext') } = .next t' ∧
      t.response = t'.response ∧ t.block.record? = some R ∧ R.pt = S.pt ∧ R.ext = S.ext ∧
      t'.block.record? = some (R.withPaging pt' ext') := by
  by_cases hok : allowed S.fmt
  · refine ⟨_, _, W S, hi.complete hb hok, hi.complete (S := S.withPaging pt' ext') rfl hok, ?_, rfl,
      (hi.keeps_paging S).1, (hi.keeps_paging S).2, ?_⟩
    · rw [State.complete_response, State.complete_response, hi.data_withPaging]
    · rw [State.complete_block, hi.record_withPaging]
      rfl
  · exact ⟨_, _, S, hi.fault hb hok, hi.fault (S := S.withPaging pt' ext') rfl hok, rfl, rfl, rfl, rfl, rfl⟩

end Consequences

/-- Settles O20: a read leaves the record it found. -/
theorem bpeek8ReturnsBankByte : Obligations.Bpeek8ReturnsBankByte := by
  intro s S bank addr hb
  have hrule := bpeek8_bankCommand bank addr
  refine ⟨fun hbank => ?_, fun hbank => hrule.fault hb (Nat.not_lt.2 hbank)⟩
  rw [hrule.complete hb hbank, id, complete_of_loaded hb, readPlace_bankOperand]
  rfl

/-- Settles O21: the write goes to the one place that the operands name. -/
theorem bpoke8WritesBankByte : Obligations.Bpoke8WritesBankByte := by
  intro s S bank addr v hb hwf
  have hrule := bpoke8_bankCommand bank addr v
  refine ⟨fun hbank => ⟨_, hrule.complete hb hbank, fun a => ?_⟩, fun hbank => hrule.fault hb (Nat.not_lt.2 hbank)⟩
  rw [← physical_bankOperand]
  exact Memory.read_write hwf _ _ _

/-- Settles O22: the word is joined from the named place and its second place, both in existing banks. -/
theorem bpeek16JoinsTwoBankBytes : Obligations.Bpeek16JoinsTwoBankBytes := by
  intro s S bank addr wrap hb
  have hrule := bpeek16_bankCommand bank addr wrap
  refine ⟨fun hbanks => ?_, fun hmissing => hrule.fault hb fun hbanks => wordInBanks_iff.1 hbanks hmissing⟩
  rw [hrule.complete hb (wordInBanks_iff.2 hbanks), id, complete_of_loaded hb, joinBytes_eq_append,
    readPlace_secondPlace, readPlace_bankOperand, bankOperand, offsetOf_toNat]
  rfl

/-- Settles O23: the second place differs from the first, so that each keeps its own byte. -/
theorem bpoke16WritesTwoBankBytes : Obligations.Bpoke16WritesTwoBankBytes := by
  intro s S bank addr v wrap hb hwf o missing second
  have hrule := bpoke16_bankCommand bank addr v wrap
  refine ⟨fun hbanks => ⟨_, hrule.complete hb (wordInBanks_iff.2 hbanks), fun a => ?_⟩,
    fun hmissing => hrule.fault hb fun hbanks => wordInBanks_iff.1 hbanks hmissing⟩
  have hsecond : physical (secondPlace (bankOperand bank addr) wrap) = second := by
    rw [(physical_secondPlace _ wrap).2, bankOperand, offsetOf_toNat]
  rw [← physical_bankOperand, ← hsecond, ← loByte_eq, ← hiByte_eq]
  exact read_storeWord hwf (physical_ne_secondPlace _ wrap) v a

/-- Settles O24: a write that completed keeps the configuration, so the read completes too, at the places written. -/
theorem bankWriteThenReadReturnsIt : Obligations.BankWriteThenReadReturnsIt := by
  intro s t S S' bank addr hb hwf
  constructor
  · intro v h ht
    obtain ⟨hbank, rfl⟩ := (bpoke8_bankCommand bank addr v).of_completed hb h ht
    refine ⟨_, (bpeek8_bankCommand bank addr).complete rfl hbank, ?_⟩
    rw [State.complete_response, readPlace_writePlace_same hwf]
    rfl
  · intro v wrap h ht
    obtain ⟨hbanks, rfl⟩ := (bpoke16_bankCommand bank addr v wrap).of_completed hb h ht
    refine ⟨_, (bpeek16_bankCommand bank addr wrap).complete rfl hbanks, ?_⟩
    rw [State.complete_response, readPlace_storeWord_lo hwf (physical_ne_secondPlace _ wrap),
      readPlace_storeWord_hi hwf, joinBytes_lo_hi]
    rfl

/-- Settles O25: the rule of each of the four commands is free of the paging state. -/
theorem bankCommandsIgnorePaging : Obligations.BankCommandsIgnorePaging := by
  intro s S pt' ext' i hb hi
  cases i with
  | bpeek8 bank addr => exact (bpeek8_bankCommand bank addr).ignores_paging hb pt' ext'
  | bpoke8 bank addr v => exact (bpoke8_bankCommand bank addr v).ignores_paging hb pt' ext'
  | bpeek16 bank addr wrap => exact (bpeek16_bankCommand bank addr wrap).ignores_paging hb pt' ext'
  | bpoke16 bank addr v wrap => exact (bpoke16_bankCommand bank addr v wrap).ignores_paging hb pt' ext'
  | lpeek8 | lpoke8 | lpeek16 | lpoke16 | setpage | load => exact hi.elim

end Sys2Proof.Machine
end

section
/-! PROOFS. The paging-control family (43_paging_control.md): the rules of SETPAGE in Loaded, and what window 3 shows
after it. -/

namespace Sys2Proof.Machine

section Setpage

variable {s : State} {S : Record} {addr : Word}

theorem pagingBank_eq_ofNat (v : Byte) : pagingBank v = BitVec.ofNat 3 (v.toNat % 8) := by
  rw [← pagingBank_toNat, BitVec.ofNat_toNat, BitVec.setWidth_eq]

/-- The BANK operand that names the bank SETPAGE v shows in window 3. -/
theorem and_seven_toNat (v : Byte) : (v &&& 7).toNat = v.toNat % 8 := by
  rw [BitVec.toNat_and]
  exact Nat.and_two_pow_sub_one_eq_mod v.toNat 3

theorem exec_setpage_of_larger (hb : s.block = .loaded S) (hf : S.fmt = .larger) (v : Byte) :
    exec (.setpage v) s = .next (s.complete (setPaging S v) 0) :=
  (setpage_storesAs v).complete hb hf

theorem exec_setpage_of_smaller (hb : s.block = .loaded S) (hf : S.fmt = .smaller) (v : Byte) :
    exec (.setpage v) s = .next (s.takeFault S .pagingUnsupported) := by
  simp only [exec, execSetpage, runLoaded_of_loaded hb, hf]
  rfl

/-- SETPAGE on a record with extension e (43_paging_control.md R180). -/
theorem setPaging_of_ext {e : Extension} (he : S.ext = some e) (v : Byte) :
    setPaging S v =
      { S with ext := some { e with pcr := v }, pt := { S.pt with slot2 := BitVec.ofNat 3 (v.toNat % 8) } } := by
  rw [setPaging, he, pagingBank_eq_ofNat]
  rfl

/-- After SETPAGE v a logical read in window 3 is of the byte that bank v & 7 held before. -/
theorem mapByte_setPaging_of_window3 (haddr : 0xC000 ≤ addr.toNat) (v : Byte) :
    mapByte (setPaging S v) addr = bankByte S (v.toNat % 8) (addr.toNat % 0x4000) := by
  rw [mapByte, if_neg (by omega), mapBank_of_window3 haddr, setPaging_slot2, pagingBank_toNat]
  rfl

/-- The bank-relative view of bank v & 7 is the same after SETPAGE v. -/
theorem readPlace_setPaging_and_seven (v : Byte) (addr : Word) :
    readPlace (setPaging S v) (bankOperand (v &&& 7) addr) =
      bankByte S (v.toNat % 8) (addr.toNat % 0x4000) := by
  rw [readPlace_bankOperand, and_seven_toNat]
  rfl

end Setpage

/-- Settles O31: both reads after SETPAGE are of the byte that bank v & 7 held before. -/
theorem setpageRemapsWindow3AtOnce : Obligations.SetpageRemapsWindow3AtOnce := by
  intro s S v addr hb _ hf haddr
  have hbank : (v &&& 7).toNat < bankCount (setPaging S v).fmt := by
    rw [and_seven_toNat, setPaging_fmt, hf]
    exact Nat.mod_lt _ (by decide)
  refine ⟨_, _, setPaging S v, exec_setpage_of_larger hb hf v, rfl, rfl, exec_lpeek8_of_loaded rfl addr, ?_, ?_⟩
  · rw [exec_bpeek8_of_lt rfl hbank, readPlace_setPaging_and_seven, mapByte_setPaging_of_window3 haddr]
  · rw [State.complete_response, mapByte_setPaging_of_window3 haddr]
    rfl

/-- Settles O30: a Larger record has its extension, so that SETPAGE has a pcr to store. -/
theorem setpageWritesPcrAndSlot2 : Obligations.SetpageWritesPcrAndSlot2 := by
  intro s S v hb hS
  refine ⟨fun hf => ?_, fun hf => exec_setpage_of_smaller hb hf v⟩
  rw [Record.paged, hf] at hS
  obtain ⟨e, he, -⟩ := hS
  refine ⟨e, he, ?_⟩
  rw [exec_setpage_of_larger hb hf, setPaging_of_ext he]
  rfl

end Sys2Proof.Machine
end

section
/-! PROOFS. The exceptions family (60_exceptions.md): how a command faults and with which code, the stuck block, the
refusal mark along a run, and the host's edit of regs. -/

namespace Sys2Proof.Machine

/-! ## The command that faults -/

section Fault

variable {s t : State} {S : Record} {c : FaultCode} {i : Instr}

/-- Only a command on a Loaded block ends in Faulted, and it leaves the record it found (60_exceptions.md R204). -/
theorem exec_faulted_eq_takeFault (h : exec i s = .next t) (ht : t.block = .faulted S c) :
    s.block = .loaded S ∧ i ≠ .load ∧ t = s.takeFault S c := by
  rcases exec_next_cases h with ⟨hb, -, rfl⟩ | ⟨hb, -, e, -, rfl⟩ | ⟨-, -, S, -, rfl⟩ | ⟨S, hb, -, rfl⟩ |
    ⟨S, c', hb, hi, rfl⟩ | ⟨S, S', d, -, -, -, rfl⟩
  · cases hb.symm.trans ht
  · cases hb.symm.trans ht
  · cases ht
  · cases hb.symm.trans ht
  · cases ht
    exact ⟨hb, hi, rfl⟩
  · cases ht

/-- The one fault that a command can take, if it can take any (60_exceptions.md R209). -/
def raisedFault : Instr → Option FaultCode
  | .lpeek8 _ | .load => none
  | .lpoke8 _ _ | .lpeek16 _ | .lpoke16 _ _ => some .addressOutOfRange
  | .bpeek8 _ _ | .bpoke8 _ _ _ | .bpeek16 _ _ _ | .bpoke16 _ _ _ _ => some .bankOutOfRange
  | .setpage _ => some .pagingUnsupported

/-- In Loaded, command i completes or takes the fault that is its own. -/
def CompletesOrFaults (i : Instr) (s : State) (S : Record) : Prop :=
  (∃ S' d, exec i s = .next (s.complete S' d)) ∨ ∃ c, raisedFault i = some c ∧ exec i s = .next (s.takeFault S c)

theorem BankCommand.completesOrFaults {allowed : Format → Prop} {W : Record → Record} {d : Record → Word}
    (hi : BankCommand i allowed W d) (hraised : raisedFault i = some .bankOutOfRange) (hb : s.block = .loaded S) :
    CompletesOrFaults i s S := by
  by_cases hok : allowed S.fmt
  · exact .inl ⟨_, _, hi.complete hb hok⟩
  · exact .inr ⟨_, hraised, hi.fault hb hok⟩

/-- Each command's rules in Loaded, gathered: where it does not complete, it takes its own fault. -/
theorem exec_completesOrFaults (hb : s.block = .loaded S) (hi : i ≠ .load) : CompletesOrFaults i s S := by
  cases i with
  | load => exact absurd rfl hi
  | lpeek8 addr => exact .inl ⟨_, _, exec_lpeek8_of_loaded hb addr⟩
  | lpoke8 addr v =>
    rcases Nat.lt_or_ge addr.toNat 0x4000 with h | h
    · exact .inr ⟨_, rfl, exec_lpoke8_of_unmapped hb h v⟩
    · exact .inl ⟨_, _, exec_lpoke8_of_mapped hb h v⟩
  | lpeek16 addr =>
    rcases Nat.lt_or_eq_of_le (Nat.le_of_lt_succ addr.isLt) with h | h
    · exact .inl ⟨_, _, exec_lpeek16_of_lt hb h⟩
    · exact .inr ⟨_, rfl, exec_lpeek16_of_last hb h⟩
  | lpoke16 addr v =>
    by_cases h : WordMapped addr
    · exact .inl ⟨_, _, exec_lpoke16_of_mapped hb h v⟩
    · exact .inr ⟨_, rfl, exec_lpoke16_of_not_mapped hb h v⟩
  | bpeek8 bank addr => exact (bpeek8_bankCommand bank addr).completesOrFaults rfl hb
  | bpoke8 bank addr v => exact (bpoke8_bankCommand bank addr v).completesOrFaults rfl hb
  | bpeek16 bank addr wrap => exact (bpeek16_bankCommand bank addr wrap).completesOrFaults rfl hb
  | bpoke16 bank addr v wrap => exact (bpoke16_bankCommand bank addr v wrap).completesOrFaults rfl hb
  | setpage v =>
    cases hf : S.fmt with
    | smaller => exact .inr ⟨_, rfl, exec_setpage_of_smaller hb hf v⟩
    | larger => exact .inl ⟨_, _, exec_setpage_of_larger hb hf v⟩

theorem raisedFault_of_exec_faulted (h : exec i s = .next t) (ht : t.block = .faulted S c) :
    raisedFault i = some c := by
  obtain ⟨hb, hi, -⟩ := exec_faulted_eq_takeFault h ht
  rcases exec_completesOrFaults hb hi with ⟨S', d, hexec⟩ | ⟨c', hraised, hexec⟩
  · cases hexec.symm.trans h
    cases ht
  · cases hexec.symm.trans h
    cases ht
    exact hraised

/-- Only LOAD answers with a decode error (60_exceptions.md R202). -/
theorem exec_response_ne_decodeError {r : Response} (h : exec i s = .next t) (hi : i ≠ .load)
    (hr : t.response = some r) : r.status ≠ .decodeError := by
  rcases exec_next_cases h with ⟨-, -, rfl⟩ | ⟨-, hload, -⟩ | ⟨-, hload, -⟩ | ⟨-, -, hload, -⟩ |
    ⟨S, c, -, -, rfl⟩ | ⟨S, S', d, -, -, -, rfl⟩
  · cases hr
  · exact absurd hload hi
  · exact absurd hload hi
  · exact absurd hload hi
  · cases hr
    nofun
  · cases hr
    nofun

end Fault

/-- Settles O42: taking the fault is all that the command has done. -/
theorem faultEntryLeavesTheRecord : Obligations.FaultEntryLeavesTheRecord := by
  intro i s t S S' c hb h ht
  obtain ⟨hb', -, rfl⟩ := exec_faulted_eq_takeFault h ht
  cases hb.symm.trans hb'
  exact ⟨rfl, by cases c <;> rfl⟩

/-- Settles O43: the code is the command's own, which LPEEK8 and LOAD have none of. -/
theorem faultsByCommand : Obligations.FaultsByCommand := by
  intro i s t h
  refine ⟨fun S c ht => ?_, fun hi r => exec_response_ne_decodeError h hi⟩
  have hraised := raisedFault_of_exec_faulted h ht
  cases i with
  | lpeek8 | load => cases hraised
  | _ =>
    cases hraised
    rfl

/-! ## The refusal mark -/

/-- What every step keeps is kept along every run. -/
theorem run_keeps {P : State → Prop} (hstep : ∀ s t, P s → step s = .next t → P t) (k : Nat) {s t : State} (hs : P s)
    (h : Host.Core.run Sys2Proof.core k s = .next t) : P t := by
  induction k generalizing s with
  | zero =>
    cases h
    exact hs
  | succ k ih =>
    obtain ⟨u, hu, hrun⟩ := run_succ_next h
    exact ih (hstep s u hs hu) hrun

section Refusal

variable {s t : State} {r : RefusalReason} {i : Instr}

/-- A refusal on a marked state keeps the mark it finds (60_exceptions.md R207; log 5). -/
theorem refuse_keeps_refusal (hs : s.refusal = some r) (r' : RefusalReason) : (s.refuse r').refusal = some r := by
  rw [State.refuse_refusal, hs, Option.getD_some]

theorem exec_keeps_refusal (hs : s.refusal = some r) (h : exec i s = .next t) : t.refusal = some r := by
  rcases exec_next_cases h with ⟨-, -, rfl⟩ | ⟨-, -, e, -, rfl⟩ | ⟨-, -, S, -, rfl⟩ | ⟨S, -, -, rfl⟩ |
    ⟨S, c, -, -, rfl⟩ | ⟨S, S', d, -, -, -, rfl⟩
  · exact refuse_keeps_refusal hs _
  · exact hs
  · exact hs
  · exact refuse_keeps_refusal hs _
  · exact hs
  · exact hs

theorem step_keeps_refusal (hs : s.refusal = some r) (h : step s = .next t) : t.refusal = some r := by
  obtain ⟨-, ⟨-, rfl⟩ | ⟨w, img, rest, e, -, -, rfl⟩ | ⟨w, img, rest, i, -, -, hexec⟩ |
    ⟨edits, rest, S, -, -, rfl⟩⟩ := step_next_cases h
  · exact hs
  · exact refuse_keeps_refusal (s := s.accept rest img) hs _
  · exact exec_keeps_refusal (s := s.accept rest img) hs hexec
  · exact hs

end Refusal

/-- Settles O47: every step keeps the mark. -/
theorem refusalMarkIsKept : Obligations.RefusalMarkIsKept := by
  intro k s t r
  exact run_keeps (P := fun u => u.refusal = some r) (fun _ _ => step_keeps_refusal) k

/-! ## The stuck block -/

theorem exec_of_faulted {s : State} {S : Record} {c : FaultCode} (hb : s.block = .faulted S c) (i : Instr) :
    exec i s = .fault (.stuck c) := by
  by_cases hi : i = .load
  · subst hi
    simp only [exec, execLoad, hb]
  · obtain ⟨f, hf, -⟩ := exists_runsAs_result hi
    exact (hf s).trans (runLoaded_of_faulted hb)

theorem step_of_faulted {s : State} {S : Record} {c : FaultCode} (hb : s.block = .faulted S c) :
    step s = .fault (.stuck c) := by
  rw [step, stepBlock, hb]
  rfl

/-- Settles O12: exec and the step both look at the block first. -/
theorem faultedBlockIsStuck : Obligations.FaultedBlockIsStuck := by
  intro i s S c hb
  exact ⟨exec_of_faulted hb i, step_of_faulted hb⟩

/-! ## The host's edit of regs -/

/-- An edit of regs in Loaded takes the host's move and changes regs alone (60_exceptions.md R218; log 8). -/
theorem step_of_editRegs {s : State} {S : Record} {edits : List RegEdit} {rest : List HostMove}
    (hb : s.block = .loaded S) (hp : s.pending = .editRegs edits :: rest) :
    step s = .next { s with
      pending := rest, block := .loaded { S with regs := edits.foldl Regs.edit S.regs } } := by
  rw [step, stepBlock, stuckCause_eq_none (by simp [hb]), hp]
  simp only [makeMove, State.editRegs, hb]

/-- Settles O13: each kind of edit gives its own field of regs the new value. -/
theorem hostEditChangesOneRegister : Obligations.HostEditChangesOneRegister := by
  intro s S rest e hb hp
  rw [step_of_editRegs hb hp]
  cases e <;> rfl

end Sys2Proof.Machine
end

section
/-! PROOFS. The reset and whole-runs family (70_reset_and_hazards.md): the new block, what of a record is fixed for the
rest of a run, and what a run that ends well has not met on its way. -/

namespace Sys2Proof.Machine

/-! ## The new block -/

/-- Settles O1: the top-level state of the new block is Unloaded, which has no record. -/
theorem resetIsUnloadedAndHoldsNothing : Obligations.ResetIsUnloadedAndHoldsNothing := ⟨rfl, rfl⟩

/-- Settles O2: the new block has neither a record nor a fault for the invariant to speak of. -/
theorem resetMeetsInvariant : Obligations.ResetMeetsInvariant := ⟨nofun, nofun⟩

/-! ## The configuration of a record -/

/-- What is fixed in a record for its life: the configuration and slots 0 and 1 (70_reset_and_hazards.md R234,
10_state.md R25). -/
def Record.fixedPart (S : Record) : Format × BankIndex × BankIndex := (S.fmt, S.pt.slot0, S.pt.slot1)

theorem RecordStep.fixedPart_eq {S S' : Record} (h : RecordStep S S') : S'.fixedPart = S.fixedPart := by
  cases h with
  | read => rfl
  | store p v hp => rfl
  | store2 p q v u hp hq => rfl
  | page v hf => rfl

/-- The block holds a record with the fixed part c. -/
def HoldsFixedPart (c : Format × BankIndex × BankIndex) (s : State) : Prop :=
  s.block.record?.map Record.fixedPart = some c

section Fixed

variable {c : Format × BankIndex × BankIndex} {s t : State} {i : Instr}

theorem holdsFixedPart_iff_of_loaded {S : Record} (hb : s.block = .loaded S) :
    HoldsFixedPart c s ↔ S.fixedPart = c := by
  simp [HoldsFixedPart, hb, Block.record?]

theorem HoldsFixedPart.ne_unloaded (hs : HoldsFixedPart c s) : s.block ≠ .unloaded := by
  intro hb
  rw [HoldsFixedPart, hb] at hs
  cases hs

/-- Only LOAD builds a record with a fixed part of its own, and it does so in Unloaded alone. -/
theorem exec_keeps_fixedPart (hs : HoldsFixedPart c s) (h : exec i s = .next t) : HoldsFixedPart c t := by
  rcases exec_next_cases h with ⟨hb, -⟩ | ⟨hb, -⟩ | ⟨hb, -⟩ | ⟨S, -, -, rfl⟩ | ⟨S, e, hb, -, rfl⟩ |
    ⟨S, S', d, hb, -, hstep, rfl⟩
  · exact absurd hb hs.ne_unloaded
  · exact absurd hb hs.ne_unloaded
  · exact absurd hb hs.ne_unloaded
  · exact hs
  · exact congrArg some ((holdsFixedPart_iff_of_loaded hb).1 hs)
  · exact congrArg some (hstep.fixedPart_eq.trans ((holdsFixedPart_iff_of_loaded hb).1 hs))

theorem step_keeps_fixedPart (hs : HoldsFixedPart c s) (h : step s = .next t) : HoldsFixedPart c t := by
  obtain ⟨-, ⟨-, rfl⟩ | ⟨w, img, rest, e, -, -, rfl⟩ | ⟨w, img, rest, i, -, -, hexec⟩ |
    ⟨edits, rest, S, -, hb, rfl⟩⟩ := step_next_cases h
  · exact hs
  · exact hs
  · exact exec_keeps_fixedPart (s := s.accept rest img) hs hexec
  · exact congrArg some ((holdsFixedPart_iff_of_loaded hb).1 hs)

end Fixed

/-- Settles O46: every step keeps the record's fixed part. -/
theorem configurationIsFixedForLife : Obligations.ConfigurationIsFixedForLife := by
  intro k s t S hS h
  have hs : HoldsFixedPart S.fixedPart s := congrArg (Option.map Record.fixedPart) hS
  have ht : HoldsFixedPart S.fixedPart t := run_keeps (fun _ _ => step_keeps_fixedPart) k hs h
  obtain ⟨S', hS', hfixed⟩ := Option.map_eq_some_iff.1 ht
  simp only [Record.fixedPart, Prod.mk.injEq] at hfixed
  exact ⟨S', hS', hfixed⟩

/-! ## Runs that end well -/

/-- No command was refused and the block is not Faulted: what 70_reset_and_hazards.md R238 asks of each state on the
way. -/
def State.Clean (s : State) : Prop := s.refusal = none ∧ ∀ S c, s.block ≠ .faulted S c

section GoodRun

variable {s t u v : State} {j k m : ℕ}

theorem State.endsWell.clean (h : s.endsWell) : s.Clean := by
  obtain ⟨⟨S, hb⟩, hr⟩ := h
  exact ⟨hr, by simp [hb]⟩

/-- A run of j + m steps passes, after j steps, through a state from which the other m lead on. -/
theorem run_add_next (h : Host.Core.run Sys2Proof.core (j + m) s = .next t) :
    ∃ u, Host.Core.run Sys2Proof.core j s = .next u ∧ Host.Core.run Sys2Proof.core m u = .next t := by
  induction j generalizing s with
  | zero => exact ⟨s, rfl, by rwa [Nat.zero_add] at h⟩
  | succ j ih =>
    rw [Nat.succ_add] at h
    obtain ⟨v, hv, hrun⟩ := run_succ_next h
    obtain ⟨u, hu, hrest⟩ := ih hrun
    exact ⟨u, (run_of_step j hv).trans hu, hrest⟩

theorem RunEndsWell.rest (h : RunEndsWell (j + m) s t) :
    ∃ u, Host.Core.run Sys2Proof.core j s = .next u ∧ RunEndsWell m u t := by
  obtain ⟨hrun, hend⟩ := h
  obtain ⟨u, hu, hrest⟩ := run_add_next hrun
  exact ⟨u, hu, hrest, hend⟩

theorem RunEndsWell.of_step (h : RunEndsWell (m + 1) u t) (hv : step u = .next v) : RunEndsWell m v t :=
  ⟨(run_of_step m hv).symm.trans h.1, h.2⟩

/-- A mark would still stand at the end, and a Faulted block would have been stuck before it. -/
theorem RunEndsWell.clean (h : RunEndsWell m u t) : u.Clean := by
  obtain ⟨hrun, hend⟩ := h
  obtain ⟨htr, htb⟩ := hend.clean
  constructor
  · cases hr : u.refusal with
    | none => rfl
    | some r => cases htr.symm.trans (refusalMarkIsKept m u t r hr hrun)
  · intro S c hb
    cases m with
    | zero =>
      cases hrun
      exact htb S c hb
    | succ m =>
      obtain ⟨v, hv, -⟩ := run_succ_next hrun
      cases (step_of_faulted hb).symm.trans hv

/-- The block is Loaded and has answered OK with code 0. -/
def State.AnsweredOk (s : State) : Prop := (∃ S, s.block = .loaded S) ∧ ∃ d, s.response = some ⟨.ok, 0, d⟩

/-- In Loaded, a command that is not refused and does not fault completes. -/
theorem exec_answersOk {S : Record} {i : Instr} (hb : s.block = .loaded S) (h : exec i s = .next t) (ht : t.Clean) :
    t.AnsweredOk := by
  obtain ⟨hr, hnf⟩ := ht
  rcases exec_next_cases h with ⟨hb', -⟩ | ⟨hb', -⟩ | ⟨hb', -⟩ | ⟨R, -, -, rfl⟩ | ⟨R, c, -, -, rfl⟩ |
    ⟨R, R', d, -, -, -, rfl⟩
  · cases hb.symm.trans hb'
  · cases hb.symm.trans hb'
  · cases hb.symm.trans hb'
  · cases hr
  · exact absurd rfl (hnf R c)
  · exact ⟨⟨R', rfl⟩, d, rfl⟩

theorem step_answersOk {S : Record} {w : CommandWord} {img : Image} {rest : List HostMove} (hb : s.block = .loaded S)
    (hp : s.pending = .command w img :: rest) (h : step s = .next t) (ht : t.Clean) : t.AnsweredOk := by
  obtain ⟨-, ⟨hp', -⟩ | ⟨w', img', rest', e, -, -, rfl⟩ | ⟨w', img', rest', i, -, -, hexec⟩ |
    ⟨edits, rest', S', hp', -⟩⟩ := step_next_cases h
  · cases hp.symm.trans hp'
  · cases ht.1
  · exact exec_answersOk (s := s.accept rest' img') hb hexec ht
  · cases hp.symm.trans hp'

end GoodRun

/-- Settles O48: what is left of the run after j steps ends well too, so it begins in a clean state. -/
theorem goodRunHasNoFaultAndNoRefusal : Obligations.GoodRunHasNoFaultAndNoRefusal := by
  intro k j s t h hj
  obtain ⟨m, rfl⟩ := Nat.exists_eq_add_of_le hj
  obtain ⟨u, hu, hrest⟩ := h.rest
  exact ⟨u, hu, hrest.clean⟩

/-- Settles O49: the state after the command lies on the run, so it is clean, and the command has completed. -/
theorem goodRunAnswersOkOnceLoaded : Obligations.GoodRunAnswersOkOnceLoaded := by
  rintro k j s t u v w img rest h hj hu ⟨S, hb⟩ hp hv
  obtain ⟨m, rfl⟩ := Nat.exists_eq_add_of_lt hj
  obtain ⟨u', hu', hrest⟩ := RunEndsWell.rest (m := m + 1) h
  cases hu'.symm.trans hu
  exact step_answersOk hb hp hv (hrest.of_step hv).clean

end Sys2Proof.Machine
end
